-- ==== Sys2Proof/Word.lean ====
section
/-! DEFINITION. The byte, the Color and the two named Colors (00_scope.md R9, 10_state.md R22). -/

namespace Sys2Proof

/-- A `u8` (R9): one byte of a stream, or one channel of a Color. -/
abbrev Byte := BitVec 8

/-- A Color: four 8-bit unsigned channels, equal exactly when all four are (R22). -/
structure Color where
  r : Byte
  g : Byte
  b : Byte
  a : Byte
deriving DecidableEq, Repr

/-- BLACK, the seed of PREV at the start of every operation (R22). -/
def Color.black : Color := ⟨0, 0, 0, 255⟩

/-- TRANS, the value every cache slot is filled with at the start of every operation (R22). -/
def Color.trans : Color := ⟨0, 0, 0, 0⟩

end Sys2Proof
end

