-- ==== Sys2Proof/Syntax.lean ====
section
/-! DEFINITION. The chunks, which are the core's instructions (30_encoding.md R73 to R80), the `.END`
pseudo-instruction (R88), and what the chunk parser can fail with (41_chunk_codec.md R120). -/

namespace Sys2Proof

/-- One row of the opcode table. The operands are the raw encoded fields, each of exactly its bit width
(R12, R83, R84): Diff and Luma fields are biased, and a Run field is the run length minus 1. -/
inductive Instr where
  /-- `FE r g b`: red, green and blue literal, alpha kept (R75). -/
  | rgb (r g b : Byte)
  /-- `FF r g b a`: all four channels literal (R76). -/
  | rgba (r g b a : Byte)
  /-- `00kkkkkk`: the color in cache slot `k` (R77). -/
  | index (k : BitVec 6)
  /-- `01rrggbb`: per-channel deltas biased by 2 (R78). -/
  | diff (dr dg db : BitVec 2)
  /-- `10gggggg rrrrbbbb`: the green delta biased by 32, red and blue relative to it biased by 8 (R79). -/
  | luma (dg : BitVec 6) (drg dbg : BitVec 4)
  /-- `11nnnnnn`: `n + 1` copies of the previous pixel (R80). -/
  | run (n : BitVec 6)
  /-- `.END`: the eight bytes of the end marker, seven `INDEX 0` and one `INDEX 1` (R86, R88). -/
  | endMark
deriving DecidableEq, Repr

/-- Why no chunk can be read at a place of the stream (R120 to R127). -/
inductive ParseError where
  /-- No tag byte remains: TruncatedInput(need = tag). -/
  | noTag
  /-- The tag asks for a chunk of `need` bytes and fewer remain: TruncatedInput(need). -/
  | short (need : Nat)
  /-- The tag matches no pattern: InvalidTag. No byte reaches it (R127). -/
  | invalidTag (t : Byte)
deriving DecidableEq, Repr

end Sys2Proof
end

