-- ==== Sys2Proof/WellFormed.lean ====
section
/-! DEFINITION. The one check an instruction needs beyond the widths of its fields (30_encoding.md R84, R85). -/

namespace Sys2Proof

/-- A Run field of 62 or 63 is reserved: its byte would be the Rgb or the Rgba tag (R80, R85). Every other
field is a register of exactly its width, so it cannot be out of range (R84, D24). -/
def Instr.wellFormed : Instr → Bool
  | .rgb _ _ _ => true
  | .rgba _ _ _ _ => true
  | .index _ => true
  | .diff _ _ _ => true
  | .luma _ _ _ => true
  | .run n => decide (n.toNat ≤ 61)
  | .endMark => true

end Sys2Proof
end

