-- ==== Sys2Proof/Decode.lean ====
section
/-! DEFINITION. PARSE_ONE, the chunk parser (41_chunk_codec.md R120 to R127); SERIALIZE_ONE's bytes, the encoder
(R128 to R134); and the listing decoder that also reads the `.END` pseudo-instruction (30_encoding.md R87, R88). -/

namespace Sys2Proof

/-- The end marker's bytes (R86). -/
def endMarker : List Byte := [0x00, 0x00, 0x00, 0x00, 0x00, 0x00, 0x00, 0x01]

/-- A chunk's length in bytes, fixed by its variant (R73); `.END` is its eight bytes (R88). -/
def Instr.lengthBytes : Instr → Nat
  | .rgb _ _ _ => 4
  | .rgba _ _ _ _ => 5
  | .index _ => 1
  | .diff _ _ _ => 1
  | .luma _ _ _ => 2
  | .run _ => 1
  | .endMark => 8

/-- `tag[7:6]`, the two-bit prefix (R74). -/
def tagPrefix (t : Byte) : BitVec 2 := t.extractLsb' 6 2

/-- `tag[5:0]`, the six-bit field of Index, Luma and Run tags (R77, R79, R80). -/
def tagField (t : Byte) : BitVec 6 := t.extractLsb' 0 6

/-- PARSE_RGB, after the tag `FE` (R121). -/
def parseRgb : List Byte → Except ParseError (Instr × Nat)
  | r :: g :: b :: _ => .ok (.rgb r g b, 4)
  | _ => .error (.short 4)

/-- PARSE_RGBA, after the tag `FF` (R122). -/
def parseRgba : List Byte → Except ParseError (Instr × Nat)
  | r :: g :: b :: a :: _ => .ok (.rgba r g b a, 5)
  | _ => .error (.short 5)

/-- PARSE_DIFF (R124): dr, dg and db from the most significant field down (R78, D10). -/
def parseDiff (t : Byte) : Except ParseError (Instr × Nat) :=
  .ok (.diff (t.extractLsb' 4 2) (t.extractLsb' 2 2) (t.extractLsb' 0 2), 1)

/-- PARSE_LUMA, tag and the bytes after it (R125): red in the high nibble, blue in the low (R79, D11). -/
def parseLuma (t : Byte) : List Byte → Except ParseError (Instr × Nat)
  | b1 :: _ => .ok (.luma (tagField t) (b1.extractLsb' 4 4) (b1.extractLsb' 0 4), 2)
  | [] => .error (.short 2)

/-- PARSE_ONE at the first byte of what remains of IN: the chunk and its length (R120). The two exact tags are
tested before the prefix (R74); the last arm is kept although no byte reaches it (R127). -/
def parseOne : List Byte → Except ParseError (Instr × Nat)
  | [] => .error .noTag
  | t :: rest =>
    if t = 0xFE#8 then parseRgb rest
    else if t = 0xFF#8 then parseRgba rest
    else if tagPrefix t = 0b00#2 then .ok (.index (tagField t), 1)
    else if tagPrefix t = 0b01#2 then parseDiff t
    else if tagPrefix t = 0b10#2 then parseLuma t rest
    else if tagPrefix t = 0b11#2 then .ok (.run (tagField t), 1)
    else .error (.invalidTag t)

/-- The listing decoder (R87, R88): `.END` where the eight bytes of the end marker stand, otherwise PARSE_ONE.
It reads opcode-table words and listings. The decode driver itself reads one chunk a step, by `parseOne`
(43_decode_driver.md R182; log 6). -/
def decode (bs : List Byte) : Except ParseError (Instr × Nat) :=
  if bs.take 8 = endMarker then .ok (.endMark, 8) else parseOne bs

/-- The bytes of an instruction (SERIALIZE_ONE, R129 to R134; `.END`, R88), meaningful for a well-formed one. -/
def encode : Instr → List Byte
  | .rgb r g b => [0xFE, r, g, b]
  | .rgba r g b a => [0xFF, r, g, b, a]
  | .index k => [0b00#2 ++ k]
  | .diff dr dg db => [0b01#2 ++ dr ++ dg ++ db]
  | .luma dg drg dbg => [0b10#2 ++ dg, drg ++ dbg]
  | .run n => [0b11#2 ++ n]
  | .endMark => endMarker

/-- The bytes of an opcode-table word: bit 0 is the least significant bit of the first byte, a later byte's bits
count on from it, and every bit from `nbits` up is 0, to eight bytes, the longest instruction. -/
def tableBytes (nbits w : Nat) : List Byte :=
  [0, 1, 2, 3, 4, 5, 6, 7].map fun k => BitVec.ofNat 8 ((w % 2 ^ nbits) >>> (8 * k))

/-- The instruction the decoder reads from an opcode-table word. -/
def decodeTableWord (nbits w : Nat) : Option Instr :=
  match decode (tableBytes nbits w) with
  | .ok (i, _) => some i
  | .error _ => none

end Sys2Proof
end

