-- ==== Sys2Proof/Config.lean ====
section
/-! DEFINITION. The implementation parameters of 00_scope.md R7: the fixed ones, and the one OPEN parameter. -/

namespace Sys2Proof

/-- The OPEN parameter of the core (R7, D13). It is fixed for a machine: no step changes it. -/
structure Config where
  /-- PIXEL_STORE_CAPACITY: the number of pixels the decoder can hold before the trim; `none` is "unbounded". -/
  pixelStoreCapacity : Option Nat
deriving DecidableEq, Repr

/-- The spec's default, an unbounded store (D13). -/
def Config.default : Config := ⟨none⟩

/-- RUN_MAX: the longest run one Run chunk can hold. -/
abbrev Config.runMax : Nat := 62

/-- HEADER_LEN: the header's length in bytes. -/
abbrev Config.headerLen : Nat := 14

/-- END_LEN: the end marker's length in bytes. -/
abbrev Config.endLen : Nat := 8

/-- END_DETECT_ZEROS: how many consecutive Index(0) chunks make a following Index(1) the end. -/
abbrev Config.endDetectZeros : Nat := 7

/-- TRIM: how many phantom pixels the decoder discards. -/
abbrev Config.trim : Nat := 7

end Sys2Proof
end

