-- ==== Sys2Proof/Machine/State.lean ====
section
/-! DEFINITION. The state of the core (10_state.md R21 to R35), the errors it reports (60_exceptions.md R240), the
reasons the model can stop, and the state after a hardware reset (70_reset_and_hazards.md R270). -/

namespace Sys2Proof.Machine

/-- The four bytes of a magic field (R30, R71). -/
structure Magic where
  m0 : Byte
  m1 : Byte
  m2 : Byte
  m3 : Byte
deriving DecidableEq, Repr

/-- HDR, the header register set (R30). -/
structure Header where
  magic : Magic
  width : BitVec 32
  height : BitVec 32
  channels : Byte
  colorspace : Byte
deriving DecidableEq, Repr

/-- PHASE, the control register of the sequencer (R33). -/
inductive Phase where
  | idle | decHeader | decChunks | decFinish | encHeader | encPixels | encFinish | done | failed
deriving DecidableEq, Repr

/-- The header fields, in the order the parse reads them (R71, R101). -/
inductive HeaderField where
  | magic | width | height | channels | colorspace
deriving DecidableEq, Repr

/-- What a TruncatedInput found cut short (R240, R241). -/
inductive Missing where
  /-- A header field. -/
  | field (f : HeaderField)
  /-- The tag byte of a chunk. -/
  | tag
  /-- A payload byte of a chunk of `need` bytes. -/
  | chunk (need : Nat)
deriving DecidableEq, Repr

/-- The error taxonomy, each error with the information R240 records. -/
inductive Error where
  /-- The stream ends before a required byte: the POS it was raised at, and what was cut short (R241). -/
  | truncatedInput (pos : Nat) (what : Missing)
  /-- The first four bytes are not "qoif": the four bytes read (R242). -/
  | badMagic (m : Magic)
  /-- A tag byte that matches no pattern; no input reaches it (R243). -/
  | invalidTag (t : Byte)
  /-- More pixels than WIDTH * HEIGHT (R244). -/
  | tooMany (produced expected : Nat)
  /-- Fewer pixels than WIDTH * HEIGHT (R244). -/
  | tooFew (produced expected : Nat)
  /-- The pixel store is full: the index that could not be written (R245). -/
  | bufferBounds (index : Nat)
deriving DecidableEq, Repr

/-- STATUS, the result register (R34): OK, or the error of the failed operation. -/
inductive Status where
  | ok
  | error (e : Error)
deriving DecidableEq, Repr

/-- The two commands of the host, with their whole operands (R35, D3). -/
inductive Command where
  /-- DECODE(IN). -/
  | decode (input : List Byte)
  /-- ENCODE(W_IN, H_IN, PIX_IN). -/
  | encode (w h : BitVec 32) (pixels : List Color)
deriving DecidableEq, Repr

/-- The state of the machine: the registers and stores of R21, the operands of the running command (R35), and the
model's own two fields, `host` and `cfg` (logs 2 and 3). -/
structure State where
  /-- PREV, the previous pixel (R23). -/
  prev : Color
  /-- CACHE[0..63], the color cache (R24). -/
  cache : Vector Color 64
  /-- RUN, the encoder's run length, `u64` (R25). -/
  run : BitVec 64
  /-- FRE, first run emitted (R26). -/
  fre : Bool
  /-- ZC, the decoder's consecutive Index(0) counter (R27). -/
  zc : Nat
  /-- POS, the decoder's byte cursor (R28). -/
  pos : Nat
  /-- IDX, the encoder's pixel cursor (R29). -/
  idx : Nat
  /-- HDR, the header registers (R30). -/
  hdr : Header
  /-- OUTPIX, the decoder's produced pixels (R31). -/
  outpix : List Color
  /-- OUTB, the encoder's output bytes (R32). -/
  outb : List Byte
  /-- PHASE (R33). -/
  phase : Phase
  /-- STATUS (R34). -/
  status : Status
  /-- IN, the operand of DECODE (R35, R50). -/
  input : List Byte
  /-- W_IN, an operand of ENCODE (R35). -/
  wIn : BitVec 32
  /-- H_IN, an operand of ENCODE (R35). -/
  hIn : BitVec 32
  /-- PIX_IN, an operand of ENCODE, in row-major order (R35, R53). -/
  pixIn : List Color
  /-- DESIGN CHOICE (log 2): the commands the host still has to issue, oldest first. -/
  host : List Command
  /-- The OPEN parameter of this machine (D13, log 3). -/
  cfg : Config
deriving DecidableEq, Repr

/-- Where the machine stops with a fault. -/
inductive Fault where
  /-- Raised by the encoder's pixel step when PIX_IN holds no pixel at IDX, an index that R50 says does not exist.
  No run reaches it (R212). Safe: the model stops where the spec gives no behaviour (log 10). -/
  | pixelIndexOutOfRange
deriving DecidableEq, Repr

/-- Where the model gives no meaning. -/
inductive Refusal where
  /-- An instruction that has no meaning in the model. Raised by no arm. Safe. -/
  | notModelled (mnemonic : String)
  /-- An ill-formed instruction, a Run with the reserved field 62 or 63, presented to the serializer or to be run
  (R85, R134, D24). No byte decodes to it, and the encoder never builds it. Safe (log 11). -/
  | illFormedChunk (c : Instr)
  /-- An ENCODE command with `len(PIX_IN) ≠ W_IN * H_IN`, which has no meaning (R210, D15). Raised by the command's
  start. Safe (log 16). -/
  | encodeSizeMismatch (pixels expected : Nat)
deriving DecidableEq, Repr

/-- The result of a part of a step: it went through, or it raised an error in the state it had reached
("no later part of that step runs", R247). -/
inductive Attempt where
  | ok (s : State)
  | raised (e : Error) (s : State)
deriving DecidableEq, Repr

/-- The state after a hardware reset (R270): PHASE is IDLE and STATUS is OK. The spec gives no other register a
power-on value; DESIGN CHOICE (log 1): each is zero, the empty sequence, or the Color of four zero channels. -/
def State.reset : State where
  prev := ⟨0, 0, 0, 0⟩
  cache := Vector.replicate 64 ⟨0, 0, 0, 0⟩
  run := 0
  fre := false
  zc := 0
  pos := 0
  idx := 0
  hdr := ⟨⟨0, 0, 0, 0⟩, 0, 0, 0, 0⟩
  outpix := []
  outb := []
  phase := .idle
  status := .ok
  input := []
  wIn := 0
  hIn := 0
  pixIn := []
  host := []
  cfg := Config.default

end Sys2Proof.Machine
end

