-- ==== Sys2Proof/Machine/Flags.lean ====
section
/-! DEFINITION. The flags of the two pipelines: ZC, the decoder's end-marker counter (43_decode_driver.md R183), and
FRE, the encoder's first-run flag (44_encode_driver.md R215). -/

namespace Sys2Proof.Machine

/-- ZC after a chunk that does not end the loop: Index(0) counts, every other chunk resets (R183). -/
def zcAfter (zc : Nat) (c : Instr) : Nat := if c = .index 0 then zc + 1 else 0

/-- The end of the decode loop: Index(1) after at least seven consecutive Index(0) chunks (R183, R184). -/
def endsLoop (zc : Nat) (c : Instr) : Bool := decide (Config.endDetectZeros ≤ zc) && decide (c = .index 1)

/-- Whether a flush makes the one-time cache write: it emitted a Run chunk and FRE is still 0 (R214, R215). -/
def firstRunWrite (emitted fre : Bool) : Bool := emitted && !fre

/-- FRE after a flush: set by the first flush that emits a Run chunk, never cleared (R26, R215). -/
def freAfter (emitted fre : Bool) : Bool := fre || emitted

/-- The numeric code of STATUS (60_exceptions.md R246). -/
def Status.code : Status → Byte
  | .ok => 0
  | .error (.truncatedInput _ _) => 1
  | .error (.badMagic _) => 2
  | .error (.invalidTag _) => 3
  | .error (.tooMany _ _) => 4
  | .error (.tooFew _ _) => 5
  | .error (.bufferBounds _) => 6

end Sys2Proof.Machine
end

