-- ==== Sys2Proof/Machine/Operands.lean ====
section
/-! DEFINITION. The bias arithmetic between a pixel, its predecessor and a chunk's fields: the decoder's direction
(42_predictor_cache.md R154, R157, R158) and the encoder's (44_encode_driver.md R217, R218). All of it is 8-bit
wrapping (00_scope.md R10), and every field is zero-extended (30_encoding.md R83). -/

namespace Sys2Proof.Machine

/-- A Diff channel: `p +₈ f −₈ 2` (R157). -/
def diffChannel (p : Byte) (f : BitVec 2) : Byte := p + f.setWidth 8 - 2

/-- The Luma green channel: `p +₈ dg −₈ 32` (R158). -/
def lumaGreen (p : Byte) (dg : BitVec 6) : Byte := p + dg.setWidth 8 - 32

/-- A Luma red or blue channel: `p +₈ f +₈ dg −₈ 40`, the two biases 32 and 8 folded (R158; 90_conflicts.md C5). -/
def lumaChannel (p : Byte) (f : BitVec 4) (dg : BitVec 6) : Byte := p + f.setWidth 8 + dg.setWidth 8 - 40

/-- APPLY_RGB's pixel: literal channels, alpha kept from PREV (R154). -/
def rgbPixel (prev : Color) (r g b : Byte) : Color := ⟨r, g, b, prev.a⟩

/-- APPLY_RGBA's pixel: all four channels literal (R155). -/
def rgbaPixel (r g b a : Byte) : Color := ⟨r, g, b, a⟩

/-- APPLY_DIFF's pixel (R157). -/
def diffPixel (prev : Color) (dr dg db : BitVec 2) : Color :=
  ⟨diffChannel prev.r dr, diffChannel prev.g dg, diffChannel prev.b db, prev.a⟩

/-- APPLY_LUMA's pixel (R158). -/
def lumaPixel (prev : Color) (dg : BitVec 6) (drg dbg : BitVec 4) : Color :=
  ⟨lumaChannel prev.r drg dg, lumaGreen prev.g dg, lumaChannel prev.b dbg dg, prev.a⟩

/-- The encoder's biased Diff difference of a channel: `x +₈ 2 −₈ p` (R217). -/
def diffField (x p : Byte) : Byte := x + 2 - p

/-- The encoder's biased Luma green difference, from the Diff one: `dg +₈ 30` (R218). -/
def lumaGreenField (dg : Byte) : Byte := dg + 30

/-- The encoder's biased Luma red or blue difference relative to green: `d +₈ 38 −₈ dg'` (R218). -/
def lumaRelField (d dg' : Byte) : Byte := d + 38 - dg'

end Sys2Proof.Machine
end

