-- ==== Sys2Proof/Machine/Ops.lean ====
section
/-! DEFINITION. The named operations over the registers, the spaces and the error: the pseudocode primitives of
00_scope.md R11, the cache hash and primitives (42_predictor_cache.md R150, R152), the decoder's append
(43_decode_driver.md R185), the shared shape of a chunk step (R182), and error entry (60_exceptions.md R247). -/

namespace Sys2Proof

/-- The cache index of a color, `(3r + 5g + 7b + 11a) mod 64`: the exact sum, narrowed to 6 bits (R150). -/
def Color.hash (c : Color) : BitVec 6 :=
  BitVec.ofNat 6 (3 * c.r.toNat + 5 * c.g.toNat + 7 * c.b.toNat + 11 * c.a.toNat)

namespace Machine

/-- The magic "qoif", bytes `71 6F 69 66` (30_encoding.md R72). -/
def Magic.qoif : Magic := ⟨0x71, 0x6F, 0x69, 0x66⟩

/-- The bytes of a magic field, in stream order. -/
def Magic.bytes (m : Magic) : List Byte := [m.m0, m.m1, m.m2, m.m3]

/-- A 32-bit integer from four bytes, most significant first (20_memory.md R54). -/
def be32 (b0 b1 b2 b3 : Byte) : BitVec 32 := b0 ++ b1 ++ b2 ++ b3

/-- The four bytes of a 32-bit integer, most significant first (R54, 40_header_codec.md R104). -/
def be32Bytes (w : BitVec 32) : List Byte :=
  [w.extractLsb' 24 8, w.extractLsb' 16 8, w.extractLsb' 8 8, w.extractLsb' 0 8]

/-- `W * H`, exact: the product of two 32-bit numbers, which 64 bits hold (R187, D12). -/
def pixelCount (w h : BitVec 32) : Nat := w.toNat * h.toNat

namespace State

/-- L, the length of IN. -/
def inputLen (s : State) : Nat := s.input.length

/-- `MemRead(addr, 1)`: the byte of IN at offset `addr`, defined for `addr < L` (R11). Every use stands behind a
check against L. -/
def byteAt (s : State) (addr : Nat) : Byte := s.input.getD addr 0

/-- The four bytes of IN from `addr` as a big-endian `u32` (R54). -/
def wordAt (s : State) (addr : Nat) : BitVec 32 :=
  be32 (s.byteAt addr) (s.byteAt (addr + 1)) (s.byteAt (addr + 2)) (s.byteAt (addr + 3))

/-- `CacheRead(k)` (R152). -/
def cacheRead (s : State) (k : BitVec 6) : Color := s.cache[k.toNat]'k.isLt

/-- `CacheWrite(c)`: the color goes to its own hash slot, the only form of cache write (R152). -/
def cacheWrite (s : State) (c : Color) : State := { s with cache := s.cache.set c.hash.toNat c c.hash.isLt }

/-- `PREV <- c`. -/
def setPrev (s : State) (c : Color) : State := { s with prev := c }

/-- `ZC <- n`. -/
def setZc (s : State) (n : Nat) : State := { s with zc := n }

/-- `POS <- POS + n` (R11). -/
def advance (s : State) (n : Nat) : State := { s with pos := s.pos + n }

/-- `PHASE <- p`. -/
def setPhase (s : State) (p : Phase) : State := { s with phase := p }

/-- `RUN <- n`. -/
def setRun (s : State) (n : BitVec 64) : State := { s with run := n }

/-- `FRE <- b`. -/
def setFre (s : State) (b : Bool) : State := { s with fre := b }

/-- `IDX <- IDX + 1`. -/
def nextPixel (s : State) : State := { s with idx := s.idx + 1 }

/-- The header registers written. -/
def setHdr (s : State) (h : Header) : State := { s with hdr := h }

/-- OUTPIX written whole (by the trim, R186). -/
def setOutpix (s : State) (l : List Color) : State := { s with outpix := l }

/-- A pixel stored at index `len(OUTPIX)` (R185). -/
def pushPixel (s : State) (p : Color) : State := { s with outpix := s.outpix ++ [p] }

/-- `Emit(b0, b1, ...)`: bytes appended to OUTB (R11, R52). -/
def emit (s : State) (bs : List Byte) : State := { s with outb := s.outb ++ bs }

/-- TAKING AN ERROR (R247), the core's only exception entry: STATUS takes the error, PHASE becomes FAILED, and
every other register keeps what it held when the error was raised. There is no return from an error (R249). -/
def enterError (s : State) (e : Error) : State := { s with status := .error e, phase := .failed }

/-- The registers every command sets before its first step (R38, R271): PREV to BLACK, the cache to TRANS, the
counters and cursors to 0, the output stores empty, STATUS to OK. DEDUCED (log 4): both commands set all of them. -/
def initRegs (s : State) : State :=
  { s with
    prev := Color.black, cache := Vector.replicate 64 Color.trans, run := 0, fre := false, zc := 0, pos := 0,
    idx := 0, outpix := [], outb := [], status := .ok }

end State

/-- Carry on after a part of a step, unless it raised an error. -/
def Attempt.bind : Attempt → (State → Attempt) → Attempt
  | .ok s, f => f s
  | .raised e s, _ => .raised e s

/-- The end of a step: a raised error is entered, and either way the machine goes on to a next state (R247). -/
def Attempt.settle : Attempt → Host.Outcome State Fault Refusal
  | .ok s => .next s
  | .raised e s => .next (s.enterError e)

/-- `Append(OUTPIX, p)`: a finite store that is full raises BufferBoundsError before anything is stored (R185). -/
def append (p : Color) (s : State) : Attempt :=
  match s.cfg.pixelStoreCapacity with
  | none => .ok (s.pushPixel p)
  | some c => if c ≤ s.outpix.length then .raised (.bufferBounds s.outpix.length) s else .ok (s.pushPixel p)

/-- `for each p in px: Append(OUTPIX, p)` (R182). -/
def appendAll : List Color → State → Attempt
  | [], s => .ok s
  | p :: ps, s => (append p s).bind (appendAll ps)

/-- `PREV <- last(px)`, then `CacheWrite(PREV)` for every variant but Index (R160, R182). -/
def updatePredictor (px : List Color) (writes : Bool) (s : State) : State :=
  let p := px.getLastD s.prev
  if writes then (s.setPrev p).cacheWrite p else s.setPrev p

/-- The step of a chunk `c` that does not end the loop (R182): POS past it, ZC by R183, its pixels `px` appended,
PREV and the cache updated. If the store fills up, what was done before stays (R247, log 7). -/
def expandChunk (c : Instr) (px : List Color) (writes : Bool) (s : State) : Attempt :=
  (appendAll px ((s.advance c.lengthBytes).setZc (zcAfter s.zc c))).bind fun s' => .ok (updatePredictor px writes s')

/-- SERIALIZE_ONE: the bytes of a well-formed chunk appended to OUTB; an ill-formed one, a Run of 62 or 63, is
refused (41_chunk_codec.md R128, R134). -/
def serializeOne (c : Instr) (s : State) : Except Refusal State :=
  if c.wellFormed then .ok (s.emit (encode c)) else .error (.illFormedChunk c)

/-- Chunks serialized in order. -/
def serializeAll : List Instr → State → Except Refusal State
  | [], s => .ok s
  | c :: cs, s => (serializeOne c s).bind (serializeAll cs)

end Machine

end Sys2Proof
end

