-- ==== Sys2Proof/Machine/Delta.lean ====
section
/-! DEFINITION. The delta chunks DIFF and LUMA (42_predictor_cache.md R157, R158). -/

namespace Sys2Proof.Machine

/-- DIFF: PREV plus three deltas biased by 2 (R157); the cache is written (R160). -/
def execDiff (dr dg db : BitVec 2) (s : State) : Host.Outcome State Fault Refusal :=
  (expandChunk (.diff dr dg db) [diffPixel s.prev dr dg db] true s).settle

/-- LUMA: PREV plus a green delta and two deltas relative to it (R158); the cache is written (R160). -/
def execLuma (dg : BitVec 6) (drg dbg : BitVec 4) (s : State) : Host.Outcome State Fault Refusal :=
  (expandChunk (.luma dg drg dbg) [lumaPixel s.prev dg drg dbg] true s).settle

end Sys2Proof.Machine
end

