-- ==== Sys2Proof/Machine/Literal.lean ====
section
/-! DEFINITION. The literal chunks RGB and RGBA (42_predictor_cache.md R154, R155). -/

namespace Sys2Proof.Machine

/-- RGB: literal red, green and blue, alpha from PREV (R154); the cache is written (R160). -/
def execRgb (r g b : Byte) (s : State) : Host.Outcome State Fault Refusal :=
  (expandChunk (.rgb r g b) [rgbPixel s.prev r g b] true s).settle

/-- RGBA: all four channels literal (R155); the cache is written (R160). -/
def execRgba (r g b a : Byte) (s : State) : Host.Outcome State Fault Refusal :=
  (expandChunk (.rgba r g b a) [rgbaPixel r g b a] true s).settle

end Sys2Proof.Machine
end

