-- ==== Sys2Proof/Machine/Lookup.lean ====
section
/-! DEFINITION. The cache reference INDEX (42_predictor_cache.md R156), with the end-marker rule
(43_decode_driver.md R183, R184), and the end marker `.END` (30_encoding.md R88). -/

namespace Sys2Proof.Machine

/-- The step of an Index chunk. Index(1) after at least seven consecutive Index(0) chunks ends the loop: it is
consumed and does nothing else (R183, R184). Any other Index gives the color in slot `k` (R156) and does not
write the cache (R160). -/
def lookupChunk (k : BitVec 6) (s : State) : Attempt :=
  if endsLoop s.zc (.index k) then .ok ((s.advance (Instr.index k).lengthBytes).setPhase .decFinish)
  else expandChunk (.index k) [s.cacheRead k] false s

/-- Index chunks in order, stopping at the first error. -/
def lookupChunks : List (BitVec 6) → State → Attempt
  | [], s => .ok s
  | k :: ks, s => (lookupChunk k s).bind (lookupChunks ks)

/-- INDEX (R156, R183). -/
def execIndex (k : BitVec 6) (s : State) : Host.Outcome State Fault Refusal := (lookupChunk k s).settle

/-- The chunks `.END` expands to (R88). -/
def endExpansion : List (BitVec 6) := [0, 0, 0, 0, 0, 0, 0, 1]

/-- `.END`: seven INDEX 0 chunks and one INDEX 1, run in order (R88). The driver itself takes them one a step
(R182, log 6). -/
def execEndMark (s : State) : Host.Outcome State Fault Refusal := (lookupChunks endExpansion s).settle

end Sys2Proof.Machine
end

