-- ==== Sys2Proof/Machine/Repeat.lean ====
section
/-! DEFINITION. The run chunk RUN (42_predictor_cache.md R159). -/

namespace Sys2Proof.Machine

/-- RUN: `n + 1` copies of PREV (R159); the cache is written (R160; 90_conflicts.md C1). A field of 62 or 63 is a
reserved encoding, no byte decodes to it, and it is refused (R85, D24, log 11). -/
def execRun (n : BitVec 6) (s : State) : Host.Outcome State Fault Refusal :=
  if (Instr.run n).wellFormed then
    (expandChunk (.run n) (List.replicate (n.toNat + 1) s.prev) true s).settle
  else .refused (.illFormedChunk (.run n))

end Sys2Proof.Machine
end

