-- ==== Sys2Proof/Machine/Dispatch.lean ====
section
/-! DEFINITION. One arm per row of spec/opcode_table.json. -/

namespace Sys2Proof.Machine

/-- The effect of one decoded chunk at a DEC_CHUNK step (43_decode_driver.md R182). -/
def exec (i : Instr) (s : State) : Host.Outcome State Fault Refusal :=
  match i with
  | .rgb r g b => Sys2Proof.Machine.execRgb r g b s
  | .rgba r g b a => Sys2Proof.Machine.execRgba r g b a s
  | .index k => Sys2Proof.Machine.execIndex k s
  | .diff dr dg db => Sys2Proof.Machine.execDiff dr dg db s
  | .luma dg drg dbg => Sys2Proof.Machine.execLuma dg drg dbg s
  | .run n => Sys2Proof.Machine.execRun n s
  | .endMark => Sys2Proof.Machine.execEndMark s

end Sys2Proof.Machine
end

