-- ==== Sys2Proof/Machine/HeaderCodec.lean ====
section
/-! DEFINITION. The header codec: HDR.PARSE and HDR.SERIALIZE (40_header_codec.md R100 to R106). -/

namespace Sys2Proof.Machine

/-- A header field boundary with too few bytes left (R100, R241). -/
def fieldCut (f : HeaderField) (s : State) : Attempt := .raised (.truncatedInput s.pos (.field f)) s

/-- The four bytes of IN from offset 0, the magic of the stream. -/
def State.magicRead (s : State) : Magic := ⟨s.byteAt 0, s.byteAt 1, s.byteAt 2, s.byteAt 3⟩

/-- The magic field: present, then equal to "qoif" (R100, R242). It is stored last. -/
def parseMagic (s : State) : Attempt :=
  if s.inputLen < 4 then fieldCut .magic s
  else if s.magicRead = Magic.qoif then .ok s
  else .raised (.badMagic s.magicRead) s

/-- HDR.WIDTH, bytes 4 to 7 (R100). -/
def parseWidth (s : State) : Attempt :=
  if s.inputLen < 8 then fieldCut .width s else .ok (s.setHdr { s.hdr with width := s.wordAt 4 })

/-- HDR.HEIGHT, bytes 8 to 11 (R100). -/
def parseHeight (s : State) : Attempt :=
  if s.inputLen < 12 then fieldCut .height s else .ok (s.setHdr { s.hdr with height := s.wordAt 8 })

/-- HDR.CHANNELS, byte 12, any value (R100, R102). -/
def parseChannels (s : State) : Attempt :=
  if s.inputLen < 13 then fieldCut .channels s else .ok (s.setHdr { s.hdr with channels := s.byteAt 12 })

/-- HDR.COLORSPACE, byte 13, any value (R100, R102). -/
def parseColorspace (s : State) : Attempt :=
  if s.inputLen < 14 then fieldCut .colorspace s else .ok (s.setHdr { s.hdr with colorspace := s.byteAt 13 })

/-- The end of the parse: HDR.MAGIC stored and POS set past the header (R100). -/
def storeMagic (s : State) : State := { s with hdr := { s.hdr with magic := s.magicRead }, pos := Config.headerLen }

/-- HDR.PARSE: the fields one at a time, in order, each checked against L first (R100, R101). A field stored before
a later check fails stays stored (R247, log 8). -/
def parseHeader (s : State) : Attempt :=
  ((((parseMagic s).bind parseWidth).bind parseHeight).bind parseChannels).bind fun s1 =>
    (parseColorspace s1).bind fun s2 => .ok (storeMagic s2)

/-- The 14 bytes of a header (R71, R104). -/
def headerBytes (h : Header) : List Byte :=
  h.magic.bytes ++ be32Bytes h.width ++ be32Bytes h.height ++ [h.channels, h.colorspace]

/-- HDR.SERIALIZE (R104). -/
def serializeHeader (s : State) : State := s.emit (headerBytes s.hdr)

end Sys2Proof.Machine
end

