-- ==== Sys2Proof/Machine/DecodeDriver.lean ====
section
/-! DEFINITION. The decode driver (43_decode_driver.md R180 to R194), but for running the chunk itself. -/

namespace Sys2Proof.Machine

/-- The start of DECODE(IN) (R180, R271). HDR keeps what it held until the parse writes it (log 17). -/
def startDecode (input : List Byte) (s : State) : State := { s.initRegs with input := input, phase := .decHeader }

/-- The DEC_HEADER step (R181). -/
def decHeaderStep (s : State) : Host.Outcome State Fault Refusal :=
  ((parseHeader s).bind fun s' => .ok (s'.setPhase .decChunks)).settle

/-- The error PARSE_ONE raises at POS (R120 to R127). -/
def parseErrorAt (pos : Nat) : ParseError → Error
  | .noTag => .truncatedInput pos .tag
  | .short need => .truncatedInput pos (.chunk need)
  | .invalidTag t => .invalidTag t

/-- The chunk at POS: PARSE_ONE on what remains of IN (R120, R182). It writes nothing. -/
def fetchChunk (s : State) : Except Error Instr :=
  match parseOne (s.input.drop s.pos) with
  | .ok (c, _) => .ok c
  | .error e => .error (parseErrorAt s.pos e)

/-- The trim: the last 7 pixels of OUTPIX are removed (R186). -/
def trimPhantoms (s : State) : State := s.setOutpix (s.outpix.take (s.outpix.length - Config.trim))

/-- The pixel-count check (R187). -/
def checkCount (s : State) : Attempt :=
  let n := pixelCount s.hdr.width s.hdr.height
  if n < s.outpix.length then .raised (.tooMany s.outpix.length n) s
  else if s.outpix.length < n then .raised (.tooFew s.outpix.length n) s
  else .ok s

/-- The DEC_FINISH step: trim, count check, and the result is there (R186 to R188). -/
def decFinishStep (s : State) : Host.Outcome State Fault Refusal :=
  ((checkCount (trimPhantoms s)).bind fun s' => .ok (s'.setPhase .done)).settle

end Sys2Proof.Machine
end

