-- ==== Sys2Proof/Machine/EncodeDriver.lean ====
section
/-! DEFINITION. The encode driver (44_encode_driver.md R210 to R227): the run-length encoder and the chunk encoder. -/

namespace Sys2Proof.Machine

/-- The header an ENCODE writes: CHANNELS 4 and COLORSPACE 0 whatever the image holds (R105, R210). -/
def encodeHeader (w h : BitVec 32) : Header := ⟨Magic.qoif, w, h, 4, 0⟩

/-- The start of ENCODE(W_IN, H_IN, PIX_IN) (R210, R271). A pixel count that is not W_IN * H_IN has no meaning and
is refused (D15, log 16). -/
def startEncode (w h : BitVec 32) (pixels : List Color) (s : State) : Host.Outcome State Fault Refusal :=
  if pixels.length = pixelCount w h then
    .next { s.initRegs with
      hdr := encodeHeader w h, wIn := w, hIn := h, pixIn := pixels, phase := .encHeader }
  else .refused (.encodeSizeMismatch pixels.length (pixelCount w h))

/-- The ENC_HEADER step (R211). -/
def encHeaderStep (s : State) : Host.Outcome State Fault Refusal :=
  .next ((serializeHeader s).setPhase (if 0 < pixelCount s.wIn s.hIn then .encPixels else .encFinish))

/-- The Run chunks of a flush: while RUN > 0, a chunk of `m = min(RUN, 62)` pixels, and RUN less m (R214;
90_conflicts.md C4). `fuel` bounds the loop; RUN itself is enough, since m ≥ 1. -/
def runChunks : (fuel run : Nat) → List Instr
  | 0, _ => []
  | fuel + 1, run =>
    if run = 0 then []
    else .run (BitVec.ofNat 6 (min run Config.runMax - 1)) :: runChunks fuel (run - min run Config.runMax)

/-- The one-time cache write and FRE, after a flush that did or did not emit a Run chunk (R214, R215). -/
def firstRunUpdate (emitted : Bool) (s : State) : State :=
  let s' := if firstRunWrite emitted s.fre then s.cacheWrite s.prev else s
  s'.setFre (freAfter emitted s.fre)

/-- FLUSH_RUN (R214, R215). The serializer could refuse an ill-formed Run; no RUN gives one. -/
def flushRun (s : State) : Except Refusal State :=
  let chunks := runChunks s.run.toNat s.run.toNat
  (serializeAll chunks s).map fun s' => firstRunUpdate (!chunks.isEmpty) (s'.setRun 0)

/-- Whether the Diff differences fit their 2-bit fields (R217). -/
def diffFits (dr dg db : Byte) : Bool := decide (dr < 4) && decide (dg < 4) && decide (db < 4)

/-- Whether the Luma differences fit their 6-bit and 4-bit fields (R218). -/
def lumaFits (dg' drg dbg : Byte) : Bool := decide (dg' < 64) && decide (drg < 16) && decide (dbg < 16)

/-- The delta chunk, or Rgb, for a pixel whose alpha is that of `prev` (R217, R218, R219). -/
def selectOpaque (px prev : Color) : Instr :=
  let dr := diffField px.r prev.r
  let dg := diffField px.g prev.g
  let db := diffField px.b prev.b
  let dg' := lumaGreenField dg
  let drg := lumaRelField dr dg'
  let dbg := lumaRelField db dg'
  if diffFits dr dg db then .diff (dr.setWidth 2) (dg.setWidth 2) (db.setWidth 2)
  else if lumaFits dg' drg dbg then .luma (dg'.setWidth 6) (drg.setWidth 4) (dbg.setWidth 4)
  else .rgb px.r px.g px.b

/-- SELECT(px) (R216 to R220, R225): a cache hit, else Diff, Luma or Rgb while alpha is unchanged, else Rgba. -/
def select (px : Color) (s : State) : Instr :=
  if s.cacheRead px.hash = px then .index px.hash
  else if px.a = s.prev.a then selectOpaque px s.prev
  else .rgba px.r px.g px.b px.a

/-- Steps 2 to 4 for a pixel that differs from PREV: flush, select and serialize, update PREV and the cache
(R212, R214, R216 to R221). -/
def emitPixel (px : Color) (s : State) : Except Refusal State :=
  (flushRun s).bind fun s1 =>
    (serializeOne (select px s1) s1).map fun s2 => (s2.setPrev px).cacheWrite px

/-- The end of a pixel step: the last pixel leads to ENC_FINISH (R212). -/
def endPixel (s : State) : State :=
  if s.idx = pixelCount s.wIn s.hIn then s.setPhase .encFinish else s

/-- The end of a step that serializes: the next state, or the serializer's refusal (R134). -/
def orRefused : Except Refusal State → Host.Outcome State Fault Refusal
  | .ok s => .next s
  | .error r => .refused r

/-- The ENC_PIXEL step: the pixel at IDX extends the run, or is emitted (R212, R213). -/
def encPixelStep (s : State) : Host.Outcome State Fault Refusal :=
  match s.pixIn[s.idx]? with
  | none => .fault .pixelIndexOutOfRange
  | some px =>
    let s' := s.nextPixel
    if px = s.prev then .next (endPixel (s'.setRun (s.run + 1)))
    else orRefused ((emitPixel px s').map endPixel)

/-- The ENC_FINISH step: the last flush, the end marker, and the result is there (R222). -/
def encFinishStep (s : State) : Host.Outcome State Fault Refusal :=
  orRefused ((flushRun s).map fun s' => (s'.emit endMarker).setPhase .done)

end Sys2Proof.Machine
end

