-- ==== Sys2Proof/Machine/HostPort.lean ====
section
/-! DEFINITION. The host's side: taking the next command (70_reset_and_hazards.md R275), and what the host observes
of an operation (R278). -/

namespace Sys2Proof.Machine

/-- A command's start (R180, R210). -/
def startCommand (c : Command) (s : State) : Host.Outcome State Fault Refusal :=
  match c with
  | .decode input => .next (startDecode input s)
  | .encode w h pixels => startEncode w h pixels s

/-- The step of a core that is not busy: the host's next command starts, and without one nothing happens
(R249, R256, R275). -/
def waitStep (s : State) : Host.Outcome State Fault Refusal :=
  match s.host with
  | [] => .next s
  | c :: rest => startCommand c { s with host := rest }

/-- Which of the two commands the host issued. -/
inductive OpKind where
  | decode | encode
deriving DecidableEq, Repr

/-- What the host observes of an operation (R278). -/
inductive Observation where
  /-- The operation has not ended. -/
  | running
  /-- DONE after DECODE: width, height, and the pixels in row-major order (R188). -/
  | image (width height : BitVec 32) (pixels : List Color)
  /-- DONE after ENCODE: the stream (R223). -/
  | stream (bytes : List Byte)
  /-- FAILED: the error in STATUS and nothing else (R194, R247). -/
  | failed (st : Status)
deriving DecidableEq, Repr

/-- The observation of a run that the command `op` started (R278). -/
def observe (op : OpKind) (s : State) : Observation :=
  match s.phase with
  | .done =>
    match op with
    | .decode => .image s.hdr.width s.hdr.height s.outpix
    | .encode => .stream s.outb
  | .failed => .failed s.status
  | _ => .running

/-- `pixel(x, y) = OUTPIX[x + y * WIDTH]` of the decoded image, for a place inside it (R188). -/
def imagePixel (s : State) (x y : Nat) : Option Color :=
  if x < s.hdr.width.toNat ∧ y < s.hdr.height.toNat then s.outpix[x + y * s.hdr.width.toNat]? else none

/-- `bytes` laid over a stream from offset `pos` on; a stream shorter than `pos` is filled with zero bytes. -/
def overlay (input : List Byte) (pos : Nat) (bytes : List Byte) : List Byte :=
  input.take pos ++ List.replicate (pos - input.length) 0 ++ bytes ++ input.drop (pos + bytes.length)

end Sys2Proof.Machine
end

