-- ==== Sys2Proof/Machine/Step.lean ====
section
/-! DEFINITION. One step of the core, by its PHASE (10_state.md R33), and how an instruction is placed where the
decoder reads next. -/

namespace Sys2Proof.Machine

/-- The DEC_CHUNK step: the chunk at POS is parsed and run; a parse error ends the operation (R182). -/
def decChunkStep (s : State) : Host.Outcome State Fault Refusal :=
  match fetchChunk s with
  | .ok c => exec c s
  | .error e => .next (s.enterError e)

/-- One step (R20, R33): what the sequencer does in each PHASE. -/
def step (s : State) : Host.Outcome State Fault Refusal :=
  match s.phase with
  | .idle => waitStep s
  | .decHeader => decHeaderStep s
  | .decChunks => decChunkStep s
  | .decFinish => decFinishStep s
  | .encHeader => encHeaderStep s
  | .encPixels => encPixelStep s
  | .encFinish => encFinishStep s
  | .done => waitStep s
  | .failed => waitStep s

/-- The instruction `w` placed where the decoder reads next: its bytes in IN from POS on, and PHASE at DEC_CHUNKS,
the only PHASE in which the core fetches (log 14). -/
def State.withFetchWord (s : State) (nbits w : Nat) : State :=
  { s with input := overlay s.input s.pos (tableBytes nbits w), phase := .decChunks }

end Sys2Proof.Machine
end

