-- ==== Sys2Proof/Safety.lean ====
section
/-! DEFINITION. What counts as a safe run: the invariant every state of a run meets, the room a chunk needs in the
pixel store, and the vocabulary the statements use. -/

namespace Sys2Proof.Machine

/-- The core is not busy: the host may issue a command (70_reset_and_hazards.md R275). -/
def Waiting (s : State) : Prop := s.phase = .idle ∨ s.phase = .done ∨ s.phase = .failed

/-- An operation runs. -/
def Busy (s : State) : Prop := ¬ Waiting s

/-- A step of the decoder (10_state.md R33). -/
def Decoding (s : State) : Prop := s.phase = .decHeader ∨ s.phase = .decChunks ∨ s.phase = .decFinish

/-- A step of the encoder (R33). -/
def Encoding (s : State) : Prop := s.phase = .encHeader ∨ s.phase = .encPixels ∨ s.phase = .encFinish

/-- The pixel store has room for `k` more pixels (43_decode_driver.md R185). -/
def Room (s : State) (k : Nat) : Prop := ∀ c, s.cfg.pixelStoreCapacity = some c → s.outpix.length + k ≤ c

/-- APPLY: the pixels a chunk expands to (42_predictor_cache.md R153 to R159). `.END` is no chunk of its own: its
pixels are those of its seven Index(0). -/
def applied (c : Instr) (s : State) : List Color :=
  match c with
  | .rgb r g b => [⟨r, g, b, s.prev.a⟩]
  | .rgba r g b a => [⟨r, g, b, a⟩]
  | .index k => [s.cacheRead k]
  | .diff dr dg db =>
    [⟨s.prev.r + dr.setWidth 8 - 2, s.prev.g + dg.setWidth 8 - 2, s.prev.b + db.setWidth 8 - 2, s.prev.a⟩]
  | .luma dg drg dbg =>
    [⟨s.prev.r + drg.setWidth 8 + dg.setWidth 8 - 40, s.prev.g + dg.setWidth 8 - 32,
      s.prev.b + dbg.setWidth 8 + dg.setWidth 8 - 40, s.prev.a⟩]
  | .run n => List.replicate (n.toNat + 1) s.prev
  | .endMark => List.replicate 7 (s.cacheRead 0)

/-- Every slot holds TRANS or a color of its own hash (R152). -/
def CacheOk (s : State) : Prop := ∀ k : BitVec 6, s.cacheRead k = Color.trans ∨ (s.cacheRead k).hash = k

/-- PREV is in the cache, unless it is still the seed and no Run has been emitted (R161, R215). -/
def SeedOrCached (s : State) : Prop :=
  s.cacheRead s.prev.hash = s.prev ∨ (s.prev = Color.black ∧ s.fre = false)

/-- What holds while a DECODE parses chunks: POS is past the header and inside IN, the header is valid, ZC counts
pixels that were appended, and PREV is the color of slot 0 while ZC counts (R28, R186, R191). -/
structure DecodeOk (s : State) : Prop where
  pos_ge : Config.headerLen ≤ s.pos
  pos_le : s.pos ≤ s.inputLen
  magic : s.hdr.magic = Magic.qoif
  zc_le : s.zc ≤ s.outpix.length
  prev_eq : 0 < s.zc → s.prev = s.cacheRead 0

/-- What holds at the end of the decode loop: the end marker was recognised (R184, R186, R191). -/
structure FinishOk (s : State) : Prop extends DecodeOk s where
  zc_ge : Config.endDetectZeros ≤ s.zc
  last : s.byteAt (s.pos - 1) = 1

/-- What an ENCODE keeps from its start on (R105, R210). -/
structure EncodeOk (s : State) : Prop where
  size : s.pixIn.length = pixelCount s.wIn s.hIn
  hdr : s.hdr = encodeHeader s.wIn s.hIn
  idx_le : s.idx ≤ pixelCount s.wIn s.hIn
  run_le : s.run.toNat ≤ s.idx
  seed : SeedOrCached s

/-- The invariant of a run: the cache holds colors at their own slots, STATUS is OK exactly when the operation has
not failed (R34, R247), the pixel store is never overfull (R185), and what each phase of an operation keeps. -/
structure Inv (s : State) : Prop where
  cache : CacheOk s
  status : s.status = .ok ↔ s.phase ≠ .failed
  store : Room s 0
  decHeader : s.phase = .decHeader → s.pos = 0 ∧ s.zc = 0 ∧ s.outpix = [] ∧ s.prev = Color.black
  decChunks : s.phase = .decChunks → DecodeOk s
  decFinish : s.phase = .decFinish → FinishOk s
  encHeader : s.phase = .encHeader → EncodeOk s ∧ s.idx = 0 ∧ s.outb = []
  encPixels : s.phase = .encPixels → EncodeOk s ∧ s.idx < pixelCount s.wIn s.hIn
  encFinish : s.phase = .encFinish → EncodeOk s ∧ s.idx = pixelCount s.wIn s.hIn

/-- `n` steps, stopping at the first fault or refusal. -/
def steps : Nat → State → Host.Outcome State Fault Refusal
  | 0, s => .next s
  | n + 1, s =>
    match step s with
    | .next t => steps n t
    | .fault f => .fault f
    | .refused r => .refused r

/-- What the host observes after `n` steps from `s` of an operation that the command `op` started
(70_reset_and_hazards.md R278); `none` if the machine has stopped. -/
def observed (op : OpKind) (n : Nat) (s : State) : Option Observation :=
  match steps n s with
  | .next t => some (observe op t)
  | .fault _ => none
  | .refused _ => none

/-- The value of an 8-bit difference as a signed number, -128 to 127: a true delta (30_encoding.md R83). -/
def trueDelta (x p : Byte) : Int := (x - p).toInt

end Sys2Proof.Machine
end

