-- ==== Sys2Proof/Certificates/Slice0/Obligations.lean ====
section
/-! DEFINITION. The statements about the core, for the provers. Each says which rule of spec/ it formalises. -/

open Sys2Proof Sys2Proof.Machine

/-! ## Reset, waiting and the commands -/

/-- 70_reset_and_hazards.md section 1: after a hardware reset PHASE is IDLE and STATUS is OK with code 0, and the
core waits. That it waits from `State.reset` rests on the model's own empty host list (log 2). -/
def Obligations.ResetIsIdleWithStatusOk : Prop :=
  State.reset.phase = .idle ∧ State.reset.status = .ok ∧ State.reset.status.code = 0 ∧
    step State.reset = .next State.reset

/-- 60_exceptions.md section 4: between commands the core is idle, and the next command is the only thing that moves
it. The list of commands is the model's own (log 2). -/
def Obligations.WaitingCoreMovesOnlyByCommands : Prop :=
  ∀ s : State, Waiting s →
    (s.host = [] → step s = .next s) ∧
    (∀ c rest, s.host = c :: rest → step s = startCommand c { s with host := rest })

/-- R180: what a DECODE command writes before its first step. -/
def Obligations.DecodeStartInitialises : Prop :=
  ∀ (s : State) (input : List Byte) (rest : List Command), Waiting s → s.host = .decode input :: rest →
    ∃ t, step s = .next t ∧ t.prev = ⟨0, 0, 0, 255⟩ ∧ (∀ k, t.cacheRead k = ⟨0, 0, 0, 0⟩) ∧ t.outpix = [] ∧
      t.zc = 0 ∧ t.pos = 0 ∧ t.status = .ok ∧ t.phase = .decHeader ∧ t.input = input

/-- R210: what an ENCODE command writes before its first step, and that a wrong pixel count is refused. -/
def Obligations.EncodeStartInitialisesOrIsRefused : Prop :=
  ∀ (s : State) (w h : BitVec 32) (px : List Color) (rest : List Command), Waiting s →
    s.host = .encode w h px :: rest →
    (px.length = w.toNat * h.toNat →
      ∃ t, step s = .next t ∧ t.prev = ⟨0, 0, 0, 255⟩ ∧ (∀ k, t.cacheRead k = ⟨0, 0, 0, 0⟩) ∧ t.run = 0 ∧
        t.fre = false ∧ t.idx = 0 ∧ t.outb = [] ∧ t.hdr = ⟨⟨0x71, 0x6F, 0x69, 0x66⟩, w, h, 4, 0⟩ ∧
        t.status = .ok ∧ t.phase = .encHeader ∧ t.wIn = w ∧ t.hIn = h ∧ t.pixIn = px) ∧
    (px.length ≠ w.toNat * h.toNat →
      step s = .refused (.encodeSizeMismatch px.length (w.toNat * h.toNat)))

/-- R38: every command re-initialises the nine registers, and what an operation left behind is never observed
again: two waiting cores that are given the same commands are observed alike from the first step on. -/
def Obligations.NothingCrossesAnOperationBoundary : Prop :=
  (∀ (s t : State) (c : Command) (rest : List Command), Waiting s → s.host = c :: rest → step s = .next t →
    t.prev = Color.black ∧ (∀ k, t.cacheRead k = Color.trans) ∧ t.run = 0 ∧ t.fre = false ∧ t.zc = 0 ∧
      t.pos = 0 ∧ t.idx = 0 ∧ t.outpix = [] ∧ t.outb = []) ∧
  (∀ (s s' : State) (c : Command) (rest : List Command) (op : OpKind) (n : Nat), Waiting s → Waiting s' →
    s.cfg = s'.cfg → s.host = c :: rest → s'.host = c :: rest →
    observed op (n + 1) s = observed op (n + 1) s')

/-! ## The header codec -/

/-- R100, R101, R181: the header step reads the fields in order. The first field that is cut short, or a wrong
magic, ends the operation with the fields read so far kept; a whole header leads to the chunks at POS 14. That a
failed parse keeps the fields it stored and the old MAGIC is DEDUCED from R247 (log 8), and that a TruncatedInput
records the field and the POS of the moment is the model's reading of R240 (log 13). -/
def Obligations.HeaderStepReadsFieldsInOrder : Prop :=
  ∀ s : State, s.phase = .decHeader →
    let width := s.byteAt 4 ++ s.byteAt 5 ++ s.byteAt 6 ++ s.byteAt 7
    let height := s.byteAt 8 ++ s.byteAt 9 ++ s.byteAt 10 ++ s.byteAt 11
    let failWith (e : Error) (h : Header) : Host.Outcome State Fault Refusal :=
      .next { s with hdr := h, status := .error e, phase := .failed }
    (s.inputLen < 4 → step s = failWith (.truncatedInput s.pos (.field .magic)) s.hdr) ∧
    (4 ≤ s.inputLen → s.input.take 4 ≠ [0x71, 0x6F, 0x69, 0x66] →
      step s = failWith (.badMagic ⟨s.byteAt 0, s.byteAt 1, s.byteAt 2, s.byteAt 3⟩) s.hdr) ∧
    (s.input.take 4 = [0x71, 0x6F, 0x69, 0x66] →
      (s.inputLen < 8 → step s = failWith (.truncatedInput s.pos (.field .width)) s.hdr) ∧
      (8 ≤ s.inputLen ∧ s.inputLen < 12 →
        step s = failWith (.truncatedInput s.pos (.field .height)) { s.hdr with width := width }) ∧
      (s.inputLen = 12 →
        step s = failWith (.truncatedInput s.pos (.field .channels))
          { s.hdr with width := width, height := height }) ∧
      (s.inputLen = 13 →
        step s = failWith (.truncatedInput s.pos (.field .colorspace))
          { s.hdr with width := width, height := height, channels := s.byteAt 12 }) ∧
      (14 ≤ s.inputLen →
        step s = .next { s with
          hdr := ⟨⟨0x71, 0x6F, 0x69, 0x66⟩, width, height, s.byteAt 12, s.byteAt 13⟩
          pos := 14
          phase := .decChunks }))

/-- R104, R211: the header step of ENCODE emits the 14 header bytes and goes on to the pixels, if there are any. -/
def Obligations.EncodeHeaderStepEmitsFourteenBytes : Prop :=
  ∀ s : State, s.phase = .encHeader → s.hdr.magic = ⟨0x71, 0x6F, 0x69, 0x66⟩ →
    step s = .next { s with
      outb := s.outb ++
        [0x71, 0x6F, 0x69, 0x66,
         s.hdr.width.extractLsb' 24 8, s.hdr.width.extractLsb' 16 8,
         s.hdr.width.extractLsb' 8 8, s.hdr.width.extractLsb' 0 8,
         s.hdr.height.extractLsb' 24 8, s.hdr.height.extractLsb' 16 8,
         s.hdr.height.extractLsb' 8 8, s.hdr.height.extractLsb' 0 8,
         s.hdr.channels, s.hdr.colorspace]
      phase := if 0 < s.wIn.toNat * s.hIn.toNat then .encPixels else .encFinish }

/-- R107: parsing the bytes that the header step of ENCODE writes for a header gives that header back, with POS 14. -/
def Obligations.HeaderRoundTrip : Prop :=
  ∀ (h : Header) (e e' s : State) (rest : List Byte), h.magic = ⟨0x71, 0x6F, 0x69, 0x66⟩ →
    e.phase = .encHeader → e.hdr = h → e.outb = [] → step e = .next e' →
    s.phase = .decHeader → s.input = e'.outb ++ rest →
    step s = .next { s with hdr := h, pos := 14, phase := .decChunks }

/-- 40_header_codec.md (the rule on CHANNELS and COLORSPACE): decoding is the same whatever these two bytes hold. -/
def Obligations.DecodingIgnoresChannelsAndColorspace : Prop :=
  ∀ (s : State) (front rest : List Byte) (c d c' d' : Byte) (n : Nat), Waiting s → front.length = 12 →
    observed .decode n { s with host := [.decode (front ++ [c, d] ++ rest)] } =
      observed .decode n { s with host := [.decode (front ++ [c', d'] ++ rest)] }

/-- R106: no step after the one that constructs it writes HDR. -/
def Obligations.HeaderIsImmutableDuringAnOperation : Prop :=
  ∀ s t : State, Busy s → s.phase ≠ .decHeader → step s = .next t → t.hdr = s.hdr

/-! ## The chunk codec -/

/-- R74, R81: every tag byte decodes to exactly one variant, the two exact tags first. -/
def Obligations.EveryTagDecodesToItsVariant : Prop :=
  ∀ (t b1 b2 b3 b4 : Byte) (rest : List Byte),
    (t.toNat ≤ 0x3F → parseOne (t :: rest) = .ok (.index (t.extractLsb' 0 6), 1)) ∧
    (0x40 ≤ t.toNat → t.toNat ≤ 0x7F →
      parseOne (t :: rest) = .ok (.diff (t.extractLsb' 4 2) (t.extractLsb' 2 2) (t.extractLsb' 0 2), 1)) ∧
    (0x80 ≤ t.toNat → t.toNat ≤ 0xBF →
      parseOne (t :: b1 :: rest) =
        .ok (.luma (t.extractLsb' 0 6) (b1.extractLsb' 4 4) (b1.extractLsb' 0 4), 2)) ∧
    (0xC0 ≤ t.toNat → t.toNat ≤ 0xFD → parseOne (t :: rest) = .ok (.run (t.extractLsb' 0 6), 1)) ∧
    parseOne (0xFE :: b1 :: b2 :: b3 :: rest) = .ok (.rgb b1 b2 b3, 4) ∧
    parseOne (0xFF :: b1 :: b2 :: b3 :: b4 :: rest) = .ok (.rgba b1 b2 b3 b4, 5)

/-- R243: no byte raises InvalidTag, and no step reports it. -/
def Obligations.InvalidTagIsNeverRaised : Prop :=
  (∀ (bs : List Byte) (t : Byte), parseOne bs ≠ .error (.invalidTag t)) ∧
  (∀ (s u : State) (t : Byte), s.status ≠ .error (.invalidTag t) → step s = .next u →
    u.status ≠ .error (.invalidTag t))

/-- 41_chunk_codec.md section 1: a missing tag byte, and a payload cut short, end the operation with
TruncatedInput at POS, and nothing else changes. -/
def Obligations.TruncatedChunksFail : Prop :=
  ∀ s : State, s.phase = .decChunks →
    let cut (what : Missing) : Host.Outcome State Fault Refusal :=
      .next { s with status := .error (.truncatedInput s.pos what), phase := .failed }
    (s.inputLen ≤ s.pos → step s = cut .tag) ∧
    (s.pos < s.inputLen → s.byteAt s.pos = 0xFE → s.inputLen < s.pos + 4 → step s = cut (.chunk 4)) ∧
    (s.pos < s.inputLen → s.byteAt s.pos = 0xFF → s.inputLen < s.pos + 5 → step s = cut (.chunk 5)) ∧
    (s.pos < s.inputLen → 0x80 ≤ (s.byteAt s.pos).toNat → (s.byteAt s.pos).toNat ≤ 0xBF →
      s.inputLen < s.pos + 2 → step s = cut (.chunk 2))

/-- R129 to R134: the bytes each chunk is serialized to, and that a Run of 62 or 63 is refused. -/
def Obligations.SerializerBytes : Prop :=
  ∀ s : State,
    (∀ r g b, serializeOne (.rgb r g b) s = .ok { s with outb := s.outb ++ [0xFE, r, g, b] }) ∧
    (∀ r g b a, serializeOne (.rgba r g b a) s = .ok { s with outb := s.outb ++ [0xFF, r, g, b, a] }) ∧
    (∀ k : BitVec 6, serializeOne (.index k) s = .ok { s with outb := s.outb ++ [k.setWidth 8] }) ∧
    (∀ dr dg db : BitVec 2, serializeOne (.diff dr dg db) s = .ok { s with
      outb := s.outb ++ [0x40 ||| dr.setWidth 8 <<< 4 ||| dg.setWidth 8 <<< 2 ||| db.setWidth 8] }) ∧
    (∀ (dg : BitVec 6) (drg dbg : BitVec 4), serializeOne (.luma dg drg dbg) s = .ok { s with
      outb := s.outb ++ [0x80 ||| dg.setWidth 8, drg.setWidth 8 <<< 4 ||| dbg.setWidth 8] }) ∧
    (∀ n : BitVec 6, n.toNat ≤ 61 →
      serializeOne (.run n) s = .ok { s with outb := s.outb ++ [0xC0 ||| n.setWidth 8] }) ∧
    (∀ n : BitVec 6, 62 ≤ n.toNat → serializeOne (.run n) s = .error (.illFormedChunk (.run n)))

/-- R135: parsing the bytes of a well-formed chunk gives it back, whatever follows, and serializing a parsed chunk
gives the bytes it was read from. -/
def Obligations.ParseInvertsSerialize : Prop :=
  (∀ (c : Instr) (rest : List Byte), c.wellFormed = true → c ≠ .endMark →
    parseOne (encode c ++ rest) = .ok (c, (encode c).length)) ∧
  (∀ (bs : List Byte) (c : Instr) (n : Nat), parseOne bs = .ok (c, n) →
    c.wellFormed = true ∧ encode c = bs.take n)

/-- 41_chunk_codec.md section 2 (the inverse law) for the chunks, and 30_encoding.md section 8 for `.END`: every
well-formed instruction is read back from its own bytes, and `.END` whatever follows them. That the listing decoder
reads `.END` where the eight bytes stand, while the chunk parser reads an Index there, is the model's choice, DEDUCED
(log 6). -/
def Obligations.ListingDecodeInvertsEncode : Prop :=
  (∀ i : Instr, i.wellFormed = true → decode (encode i) = .ok (i, i.lengthBytes)) ∧
  (∀ rest : List Byte, decode (encode .endMark ++ rest) = .ok (.endMark, 8))

/-- 95_test_vectors.md sections L2.3 and L2.4, 41_chunk_codec.md section 1 and 30_encoding.md section 8: a few words of
the spec, each decoded to the instruction it stands for. That the last one is read as `.END` is DEDUCED (log 6), and the
order in which a table word is laid out as bytes is the model's `tableBytes` (log 14). -/
def Obligations.WordsDecodeAsTheSpecWritesThem : Prop :=
  decodeTableWord 32 0x1E140AFE = some (.rgb 10 20 30) ∧
  decodeTableWord 40 0x281E140AFF = some (.rgba 10 20 30 40) ∧
  decodeTableWord 8 0x35 = some (.index 53) ∧
  decodeTableWord 8 0x5A = some (.diff 1 2 2) ∧
  decodeTableWord 16 0x5A90 = some (.luma 16 5 10) ∧
  decodeTableWord 8 0xFD = some (.run 61) ∧
  decodeTableWord 64 0x0100000000000000 = some .endMark

/-- 30_encoding.md section 7: the end marker's bytes are, under the chunk grammar, seven Index(0) and one Index(1). -/
def Obligations.EndMarkerIsSevenIndexZeroAndIndexOne : Prop :=
  ∀ rest : List Byte,
    (∀ k, k < 7 → parseOne ((endMarker ++ rest).drop k) = .ok (.index 0, 1)) ∧
    parseOne ((endMarker ++ rest).drop 7) = .ok (.index 1, 1)

/-! ## The hash and the cache -/

/-- R150: the hash, with the rule's example values. -/
def Obligations.HashIsTheWeightedSumMod64 : Prop :=
  (∀ c : Color, c.hash.toNat = (3 * c.r.toNat + 5 * c.g.toNat + 7 * c.b.toNat + 11 * c.a.toNat) % 64) ∧
  Color.hash ⟨0, 0, 0, 0⟩ = 0 ∧ Color.hash ⟨0, 0, 0, 255⟩ = 53 ∧ Color.hash ⟨255, 255, 255, 255⟩ = 38 ∧
  Color.hash ⟨255, 0, 0, 255⟩ = 50

/-- R151: computed with wrapping arithmetic in any width of at least 6 bits, the hash is the same. -/
def Obligations.HashDoesNotDependOnTheWidth : Prop :=
  ∀ (n : Nat) (c : Color), 6 ≤ n →
    (BitVec.ofNat n 3 * c.r.setWidth n + BitVec.ofNat n 5 * c.g.setWidth n + BitVec.ofNat n 7 * c.b.setWidth n +
      BitVec.ofNat n 11 * c.a.setWidth n).toNat % 64 = c.hash.toNat

/-- R152: a cache write goes to the color's own slot and nowhere else, so from a command's start on, every slot holds
TRANS or a color of its own hash, and slot 0 a color of hash 0. -/
def Obligations.CacheHoldsColorsAtTheirOwnSlots : Prop :=
  (∀ (s : State) (c : Color) (k : BitVec 6),
    (s.cacheWrite c).cacheRead k = if k = c.hash then c else s.cacheRead k) ∧
  (∀ (s t : State) (c : Command) (rest : List Command), Waiting s → s.host = c :: rest → step s = .next t →
    CacheOk t) ∧
  (∀ s t : State, CacheOk s → step s = .next t → CacheOk t) ∧
  (∀ s : State, CacheOk s → (s.cacheRead 0).hash = 0)

/-! ## The instructions: results, completion and frame -/

/-- R154: RGB appends the literal color with PREV's alpha. Everything that does not appear is unchanged. -/
def Obligations.RgbResult : Prop :=
  ∀ (r g b : Byte) (s : State), Room s 1 →
    exec (.rgb r g b) s = .next { s with
      pos := s.pos + 4
      zc := 0
      outpix := s.outpix ++ [⟨r, g, b, s.prev.a⟩]
      prev := ⟨r, g, b, s.prev.a⟩
      cache := (s.cacheWrite ⟨r, g, b, s.prev.a⟩).cache }

/-- R155: RGBA appends the literal color. Everything that does not appear is unchanged. -/
def Obligations.RgbaResult : Prop :=
  ∀ (r g b a : Byte) (s : State), Room s 1 →
    exec (.rgba r g b a) s = .next { s with
      pos := s.pos + 5
      zc := 0
      outpix := s.outpix ++ [⟨r, g, b, a⟩]
      prev := ⟨r, g, b, a⟩
      cache := (s.cacheWrite ⟨r, g, b, a⟩).cache }

/-- R156: INDEX appends the color of its slot and writes no slot, unless it ends the loop, which consumes it and does
nothing else. Everything that does not appear is unchanged. -/
def Obligations.IndexResult : Prop :=
  ∀ (k : BitVec 6) (s : State),
    (¬ (k = 1 ∧ 7 ≤ s.zc) → Room s 1 →
      exec (.index k) s = .next { s with
        pos := s.pos + 1
        zc := if k = 0 then s.zc + 1 else 0
        outpix := s.outpix ++ [s.cacheRead k]
        prev := s.cacheRead k }) ∧
    (k = 1 → 7 ≤ s.zc → exec (.index k) s = .next { s with pos := s.pos + 1, phase := .decFinish })

/-- R157: DIFF adds the three deltas, biased by 2 and wrapping, to PREV. Everything that does not appear is
unchanged. -/
def Obligations.DiffResult : Prop :=
  ∀ (dr dg db : BitVec 2) (s : State), Room s 1 → ∃ p : Color,
    p.r.toNat = (s.prev.r.toNat + dr.toNat + 254) % 256 ∧ p.g.toNat = (s.prev.g.toNat + dg.toNat + 254) % 256 ∧
    p.b.toNat = (s.prev.b.toNat + db.toNat + 254) % 256 ∧ p.a = s.prev.a ∧
    exec (.diff dr dg db) s = .next { s with
      pos := s.pos + 1
      zc := 0
      outpix := s.outpix ++ [p]
      prev := p
      cache := (s.cacheWrite p).cache }

/-- R158: LUMA adds the green delta, biased by 32, and the red and blue deltas relative to it, with the folded bias
40. Everything that does not appear is unchanged. -/
def Obligations.LumaResult : Prop :=
  ∀ (dg : BitVec 6) (drg dbg : BitVec 4) (s : State), Room s 1 → ∃ p : Color,
    p.g.toNat = (s.prev.g.toNat + dg.toNat + 224) % 256 ∧
    p.r.toNat = (s.prev.r.toNat + drg.toNat + dg.toNat + 216) % 256 ∧
    p.b.toNat = (s.prev.b.toNat + dbg.toNat + dg.toNat + 216) % 256 ∧ p.a = s.prev.a ∧
    exec (.luma dg drg dbg) s = .next { s with
      pos := s.pos + 2
      zc := 0
      outpix := s.outpix ++ [p]
      prev := p
      cache := (s.cacheWrite p).cache }

/-- R159: RUN appends `n + 1` copies of PREV and leaves PREV. Everything that does not appear is unchanged. -/
def Obligations.RunResult : Prop :=
  ∀ (n : BitVec 6) (s : State), n.toNat ≤ 61 → Room s (n.toNat + 1) →
    exec (.run n) s = .next { s with
      pos := s.pos + 1
      zc := 0
      outpix := s.outpix ++ List.replicate (n.toNat + 1) s.prev
      cache := (s.cacheWrite s.prev).cache }

/-- 30_encoding.md section 6: a RUN with a reserved field, 62 or 63, is refused, and no bytes are parsed to one. That
running it is refused, as serializing it is, is DEDUCED (log 11). -/
def Obligations.ReservedRunIsRefused : Prop :=
  ∀ n : BitVec 6, 62 ≤ n.toNat →
    (∀ s, exec (.run n) s = .refused (.illFormedChunk (.run n))) ∧ ∀ bs len, parseOne bs ≠ .ok (.run n, len)

/-- 30_encoding.md section 8: `.END` runs its seven Index(0) and its Index(1): seven phantom pixels of slot 0, ZC up by
seven, and the end of the loop. Everything that does not appear is unchanged. -/
def Obligations.EndMarkResult : Prop :=
  ∀ s : State, Room s 7 →
    exec .endMark s = .next { s with
      pos := s.pos + 8
      zc := s.zc + 7
      outpix := s.outpix ++ List.replicate 7 (s.cacheRead 0)
      prev := s.cacheRead 0
      phase := .decFinish }

/-- 42_predictor_cache.md section 3: Rgb, Rgba, Diff, Luma and Run write the last pixel to its slot, Index writes
none; PREV is the last pixel. -/
def Obligations.CacheUpdateByVariant : Prop :=
  ∀ (c : Instr) (s : State), c.wellFormed = true → c ≠ .endMark → ¬ (c = .index 1 ∧ 7 ≤ s.zc) →
    Room s (applied c s).length →
    ∃ t p, exec c s = .next t ∧ (applied c s).getLast? = some p ∧ t.prev = p ∧
      ∀ k, t.cacheRead k =
        match c with
        | .index _ => s.cacheRead k
        | _ => if k = p.hash then p else s.cacheRead k

/-- 10_state.md section 12 and 60_exceptions.md section 2: the frame of every instruction, also when the pixel store
fills up on the way. The encoder's registers, HDR, the operands and the other slots keep their values, OUTPIX only
grows, and STATUS and PHASE change only to the end of the loop or to a full store. -/
def Obligations.InstructionFrame : Prop :=
  ∀ (i : Instr) (s t : State), exec i s = .next t →
    t.run = s.run ∧ t.fre = s.fre ∧ t.idx = s.idx ∧ t.hdr = s.hdr ∧ t.outb = s.outb ∧ t.input = s.input ∧
    t.wIn = s.wIn ∧ t.hIn = s.hIn ∧ t.pixIn = s.pixIn ∧ t.host = s.host ∧ t.cfg = s.cfg ∧
    s.outpix <+: t.outpix ∧
    (∀ k, k ≠ t.prev.hash → t.cacheRead k = s.cacheRead k) ∧
    ((t.status = s.status ∧ (t.phase = s.phase ∨ t.phase = .decFinish)) ∨
      (∃ ix, t.status = .error (.bufferBounds ix) ∧ t.phase = .failed))

/-- 43_decode_driver.md (appending a pixel): a chunk whose pixels do not all fit in a finite store fills it, and ends
the operation with BufferBoundsError; PREV and the cache keep their values. What stays behind is DEDUCED (log 7). -/
def Obligations.FullStoreRaisesBufferBounds : Prop :=
  ∀ (c : Instr) (s : State) (cap : Nat), c.wellFormed = true → c ≠ .endMark → ¬ (c = .index 1 ∧ 7 ≤ s.zc) →
    s.cfg.pixelStoreCapacity = some cap → s.outpix.length ≤ cap → cap < s.outpix.length + (applied c s).length →
    exec c s = .next { s with
      pos := s.pos + c.lengthBytes
      zc := if c = .index 0 then s.zc + 1 else 0
      outpix := s.outpix ++ (applied c s).take (cap - s.outpix.length)
      status := .error (.bufferBounds cap)
      phase := .failed }

/-! ## The decode driver -/

/-- 43_decode_driver.md (the DEC_CHUNK step): where a chunk can be parsed at POS, the step is the chunk's meaning, and
its length is the variant's. -/
def Obligations.StepRunsTheParsedChunk : Prop :=
  ∀ (s : State) (c : Instr) (n : Nat), s.phase = .decChunks → parseOne (s.input.drop s.pos) = .ok (c, n) →
    step s = exec c s ∧ n = c.lengthBytes ∧ c.wellFormed = true

/-- 30_encoding.md section 8 with the step grain of one chunk: where the end marker stands at POS and the store has
room, eight steps are the meaning of `.END` (log 6). -/
def Obligations.MarkerRunsAsEightSteps : Prop :=
  ∀ (s : State) (rest : List Byte), s.phase = .decChunks → s.input.drop s.pos = encode .endMark ++ rest →
    Room s 7 → steps 8 s = exec .endMark s

/-- R183: the zero-counter rule, for every chunk. -/
def Obligations.ZeroCounterRule : Prop :=
  ∀ (c : Instr) (s : State), c.wellFormed = true → c ≠ .endMark → Room s (applied c s).length →
    ∃ t, exec c s = .next t ∧
      (c = .index 0 → t.zc = s.zc + 1 ∧ t.outpix = s.outpix ++ applied c s) ∧
      (c ≠ .index 0 → 7 ≤ s.zc ∧ c = .index 1 →
        t.phase = .decFinish ∧ t.zc = s.zc ∧ t.outpix = s.outpix) ∧
      (c ≠ .index 0 → ¬ (7 ≤ s.zc ∧ c = .index 1) →
        t.phase = s.phase ∧ t.zc = 0 ∧ t.outpix = s.outpix ++ applied c s)

/-- R184: the decode loop ends at an Index(1) after seven or more Index(0) and at nothing else; the byte is consumed
and PREV, CACHE, ZC and OUTPIX are unchanged. -/
def Obligations.LoopEndsOnlyAtTheMarker : Prop :=
  ∀ s : State, s.phase = .decChunks →
    ((∃ t, step s = .next t ∧ t.phase = .decFinish) ↔
      7 ≤ s.zc ∧ s.pos < s.inputLen ∧ s.byteAt s.pos = 0x01) ∧
    (7 ≤ s.zc → s.pos < s.inputLen → s.byteAt s.pos = 0x01 →
      step s = .next { s with pos := s.pos + 1, phase := .decFinish })

/-- R187: after the trim of the last 7 pixels, the count is compared with the exact product of WIDTH and HEIGHT. -/
def Obligations.FinishTrimsAndChecksTheCount : Prop :=
  ∀ s : State, s.phase = .decFinish → 7 ≤ s.outpix.length →
    let kept := s.outpix.take (s.outpix.length - 7)
    let n := (s.hdr.width.setWidth 64 * s.hdr.height.setWidth 64).toNat
    n = s.hdr.width.toNat * s.hdr.height.toNat ∧
    (n < kept.length → step s =
      .next { s with outpix := kept, status := .error (.tooMany kept.length n), phase := .failed }) ∧
    (kept.length < n → step s =
      .next { s with outpix := kept, status := .error (.tooFew kept.length n), phase := .failed }) ∧
    (kept.length = n → step s = .next { s with outpix := kept, phase := .done })

/-- R188: the result is the buffer of WIDTH by HEIGHT whose pixel (x, y) is `OUTPIX[x + y * WIDTH]`; STATUS and HDR
are unchanged, and stay so until the next command. -/
def Obligations.DecodedImageIsRowMajor : Prop :=
  ∀ s t : State, s.phase = .decFinish → step s = .next t → t.phase = .done →
    t.status = s.status ∧ t.hdr = s.hdr ∧
    t.outpix.length = t.hdr.width.toNat * t.hdr.height.toNat ∧
    observe .decode t = .image s.hdr.width s.hdr.height t.outpix ∧ (t.host = [] → ∀ n, steps n t = .next t) ∧
    ∀ x y, x < t.hdr.width.toNat → y < t.hdr.height.toNat →
      ∃ h : x + y * t.hdr.width.toNat < t.outpix.length,
        imagePixel t x y = some (t.outpix[x + y * t.hdr.width.toNat])

/-- 43_decode_driver.md section on the end state: at DONE, POS is just past the terminating `01`, ZC is at least 7 and
PREV is the color of slot 0. -/
def Obligations.EndStateOfADecode : Prop :=
  ∀ s t : State, Inv s → s.phase = .decFinish → step s = .next t → t.phase = .done →
    7 ≤ t.zc ∧ t.prev = t.cacheRead 0 ∧ 1 ≤ t.pos ∧ t.pos ≤ t.inputLen ∧ t.byteAt (t.pos - 1) = 0x01 ∧
      (∀ k, t.cacheRead k = s.cacheRead k)

/-- R190: bytes after the end marker are never read: once the end of the loop is reached, with any bytes appended to
the stream the machine is in the same state, IN apart, whether the count check passes or fails. -/
def Obligations.TrailingBytesAreIgnored : Prop :=
  ∀ (s t : State) (input extra : List Byte) (n : Nat), Waiting s →
    steps (n + 1) { s with host := [.decode input] } = .next t →
    (t.phase = .decFinish ∨ t.phase = .done ∨
      ∃ m k, t.status = .error (.tooMany m k) ∨ t.status = .error (.tooFew m k)) →
    steps (n + 1) { s with host := [.decode (input ++ extra)] } = .next { t with input := input ++ extra }

/-- 43_decode_driver.md (progress): a chunk step raises an error or moves POS forward, never past the end of IN. -/
def Obligations.ChunkStepsMakeProgress : Prop :=
  ∀ s t : State, s.phase = .decChunks → s.pos ≤ s.inputLen → step s = .next t →
    (t.phase = .failed ∧ t.status ≠ .ok) ∨
      (s.pos < t.pos ∧ t.pos ≤ t.inputLen ∧ (t.phase = .decChunks ∨ t.phase = .decFinish))

/-- 43_decode_driver.md (termination): every DECODE ends. Its start, its header, at most `L - 14` chunk steps that
advance, and one step more: the finish, or the chunk step that raises (log 19). -/
def Obligations.EveryDecodeEnds : Prop :=
  ∀ (s : State) (input : List Byte), Waiting s → s.host = [.decode input] →
    ∃ n t, n ≤ (input.length - 14) + 3 ∧ steps n s = .next t ∧
      (t.phase = .done ∨ t.phase = .failed) ∧ t.host = []

/-! ## Errors, status and phases -/

/-- R246, R247: a raised error puts its code in STATUS and FAILED in PHASE, delivers no result, and leaves every other
register as it was; a failed operation stays failed until the next command; no code above 6 is ever written. -/
def Obligations.ErrorEntry : Prop :=
  (∀ (e : Error) (s : State), (Attempt.raised e s).settle = .next { s with status := .error e, phase := .failed } ∧
    ∀ op, observe op { s with status := .error e, phase := .failed } = .failed (.error e)) ∧
  (∀ s t : State, Busy s → step s = .next t → t.phase = .failed →
    (∃ e, t.status = .error e ∧ ∀ op, observe op t = .failed (.error e)) ∧
    (t.host = [] → ∀ n, steps n t = .next t)) ∧
  Status.code .ok = 0 ∧ (∀ p m, Status.code (.error (.truncatedInput p m)) = 1) ∧
  (∀ m, Status.code (.error (.badMagic m)) = 2) ∧ (∀ t, Status.code (.error (.invalidTag t)) = 3) ∧
  (∀ m n, Status.code (.error (.tooMany m n)) = 4) ∧ (∀ m n, Status.code (.error (.tooFew m n)) = 5) ∧
  (∀ i, Status.code (.error (.bufferBounds i)) = 6) ∧ (∀ st : Status, st.code.toNat ≤ 6)

/-- 10_state.md section 10 (STATUS): a step changes STATUS only by failing a DECODE, or to OK at a command's start. -/
def Obligations.StatusChangesOnlyAtAFailureOrAStart : Prop :=
  ∀ s t : State, step s = .next t → t.status ≠ s.status →
    (Decoding s ∧ t.phase = .failed) ∨
      (Waiting s ∧ s.host ≠ [] ∧ t.status = .ok ∧ (t.phase = .decHeader ∨ t.phase = .encHeader))

/-- 10_state.md section 10 (PHASE): the phases follow the sequencer's table. An empty image takes ENC_HEADER to
ENC_FINISH, as the encode driver's header step says (log 5). -/
def Obligations.PhasesFollowTheSequencer : Prop :=
  ∀ s t : State, step s = .next t →
    match s.phase with
    | .idle => (s.host = [] ∧ t.phase = .idle) ∨ (s.host ≠ [] ∧ (t.phase = .decHeader ∨ t.phase = .encHeader))
    | .decHeader => t.phase = .decChunks ∨ t.phase = .failed
    | .decChunks => t.phase = .decChunks ∨ t.phase = .decFinish ∨ t.phase = .failed
    | .decFinish => t.phase = .done ∨ t.phase = .failed
    | .encHeader => t.phase = .encPixels ∨ (t.phase = .encFinish ∧ s.wIn.toNat * s.hIn.toNat = 0)
    | .encPixels => t.phase = .encPixels ∨ t.phase = .encFinish
    | .encFinish => t.phase = .done
    | .done => (s.host = [] ∧ t.phase = .done) ∨ (s.host ≠ [] ∧ (t.phase = .decHeader ∨ t.phase = .encHeader))
    | .failed => (s.host = [] ∧ t.phase = .failed) ∨ (s.host ≠ [] ∧ (t.phase = .decHeader ∨ t.phase = .encHeader))

/-- 20_memory.md section 1 and 10_state.md section 12: while an operation runs, the operands, the parameter and the
host's list are unchanged, OUTB only grows, and each pipeline leaves the other's registers alone. -/
def Obligations.PipelinesKeepToTheirRegisters : Prop :=
  ∀ s t : State, Busy s → step s = .next t →
    t.input = s.input ∧ t.wIn = s.wIn ∧ t.hIn = s.hIn ∧ t.pixIn = s.pixIn ∧ t.host = s.host ∧ t.cfg = s.cfg ∧
    s.outb <+: t.outb ∧
    (Decoding s → t.run = s.run ∧ t.fre = s.fre ∧ t.idx = s.idx ∧ t.outb = s.outb) ∧
    (Encoding s → t.zc = s.zc ∧ t.pos = s.pos ∧ t.outpix = s.outpix ∧ t.status = s.status)

/-! ## The invariant -/

/-- The state after reset meets the invariant. It rests on the model's reset values (log 1). -/
def Obligations.ResetMeetsTheInvariant : Prop := Inv State.reset

/-- Every step keeps the invariant (R28, R34, R152, R185, R186, R191, R210, R215). -/
def Obligations.StepKeepsTheInvariant : Prop :=
  ∀ s t : State, Inv s → step s = .next t → Inv t

/-- A state that meets the invariant never faults, and refuses nothing but an ill-formed ENCODE command. -/
def Obligations.InvariantStatesNeverFault : Prop :=
  ∀ s : State, Inv s →
    (∀ f, step s ≠ .fault f) ∧
    (∀ r, step s = .refused r →
      ∃ w h px rest, Waiting s ∧ s.host = .encode w h px :: rest ∧ px.length ≠ w.toNat * h.toNat ∧
        r = .encodeSizeMismatch px.length (w.toNat * h.toNat))

/-! ## The encode driver -/

/-- R224: no step of an ENCODE raises an error; the only ENCODE without a result is the refused command. -/
def Obligations.EncodeHasNoFailureMode : Prop :=
  (∀ s : State, Inv s → Encoding s → ∃ t, step s = .next t ∧ t.status = .ok ∧ t.phase ≠ .failed) ∧
  (∀ (s : State) (w h : BitVec 32) (px : List Color) (rest : List Command), Waiting s →
    s.host = .encode w h px :: rest →
    ((∃ t, step s = .next t ∧ t.status = .ok ∧ t.phase = .encHeader) ↔ px.length = w.toNat * h.toNat))

/-- R214: a flush emits full Run chunks of 62 pixels and one for the rest, and RUN is 0 after it. FRE and the one-time
cache write follow (44_encode_driver.md, first-run cache write). -/
def Obligations.FlushSplitsRunsAt62 : Prop :=
  ∀ s : State, ∃ t, flushRun s = .ok t ∧
    t.outb = s.outb ++ List.replicate (s.run.toNat / 62) 0xFD ++
      (if s.run.toNat % 62 = 0 then [] else [0xC0 ||| BitVec.ofNat 8 (s.run.toNat % 62 - 1)]) ∧
    t.run = 0 ∧ t.fre = (s.fre || decide (s.run ≠ 0)) ∧ t.prev = s.prev ∧ t.idx = s.idx ∧ t.phase = s.phase ∧
    (∀ k, t.cacheRead k =
      if s.run ≠ 0 ∧ s.fre = false ∧ k = s.prev.hash then s.prev else s.cacheRead k)

/-- 44_encode_driver.md (selection): the chunk for a pixel, by the cache, its alpha and its true deltas. -/
def Obligations.SelectionByTrueDeltas : Prop :=
  ∀ (px : Color) (s : State),
    let dr := trueDelta px.r s.prev.r
    let dg := trueDelta px.g s.prev.g
    let db := trueDelta px.b s.prev.b
    let rel (x p : Byte) := trueDelta (x - p) (px.g - s.prev.g)
    let small := (-2 ≤ dr ∧ dr ≤ 1) ∧ (-2 ≤ dg ∧ dg ≤ 1) ∧ (-2 ≤ db ∧ db ≤ 1)
    let near := (-32 ≤ dg ∧ dg ≤ 31) ∧ (-8 ≤ rel px.r s.prev.r ∧ rel px.r s.prev.r ≤ 7) ∧
      (-8 ≤ rel px.b s.prev.b ∧ rel px.b s.prev.b ≤ 7)
    let miss := s.cacheRead px.hash ≠ px
    (s.cacheRead px.hash = px → select px s = .index px.hash) ∧
    (miss → px.a ≠ s.prev.a → select px s = .rgba px.r px.g px.b px.a) ∧
    (miss → px.a = s.prev.a → small →
      select px s = .diff (BitVec.ofInt 2 (dr + 2)) (BitVec.ofInt 2 (dg + 2)) (BitVec.ofInt 2 (db + 2))) ∧
    (miss → px.a = s.prev.a → ¬ small → near →
      select px s = .luma (BitVec.ofInt 6 (dg + 32)) (BitVec.ofInt 4 (rel px.r s.prev.r + 8))
        (BitVec.ofInt 4 (rel px.b s.prev.b + 8))) ∧
    (miss → px.a = s.prev.a → ¬ small → ¬ near → select px s = .rgb px.r px.g px.b)

/-- 42_predictor_cache.md section 3 (agreement): the chunk the encoder selects for a pixel expands to that pixel. -/
def Obligations.SelectedChunkExpandsToThePixel : Prop :=
  ∀ (px : Color) (s : State), (select px s).wellFormed = true ∧ applied (select px s) s = [px]

/-- R212, R213, R221: the pixel step. A pixel equal to PREV extends the run and emits nothing; any other is emitted
after a flush, and becomes PREV and its cache slot's color. -/
def Obligations.PixelStep : Prop :=
  ∀ (s : State) (px : Color), s.phase = .encPixels → s.pixIn[s.idx]? = some px →
    let phase' := if s.idx + 1 = s.wIn.toNat * s.hIn.toNat then Phase.encFinish else Phase.encPixels
    (px = s.prev → step s = .next { s with idx := s.idx + 1, run := s.run + 1, phase := phase' }) ∧
    (px ≠ s.prev → ∃ f, flushRun { s with idx := s.idx + 1 } = .ok f ∧
      step s = .next { f with
        outb := f.outb ++ encode (select px f)
        prev := px
        cache := (f.cacheWrite px).cache
        phase := phase' })

/-- R222: the finish step flushes the pending run, writes the end marker and is done. -/
def Obligations.EncodeFinishStep : Prop :=
  ∀ s : State, s.phase = .encFinish → ∃ f, flushRun s = .ok f ∧
    step s = .next { f with outb := f.outb ++ [0, 0, 0, 0, 0, 0, 0, 1], phase := .done }

/-- 70_reset_and_hazards.md section 3: an ENCODE ends after exactly W * H pixel steps, with its start, its header and
its finish. -/
def Obligations.EncodeEndsAfterExactlyItsPixels : Prop :=
  ∀ (s : State) (w h : BitVec 32) (px : List Color), Waiting s → s.host = [.encode w h px] →
    px.length = w.toNat * h.toNat →
    (∃ t, steps (w.toNat * h.toNat + 3) s = .next t ∧ t.phase = .done ∧
      t.run = 0 ∧ t.idx = w.toNat * h.toNat) ∧
    (∀ k, 1 ≤ k → k < w.toNat * h.toNat + 3 →
      ∃ u, steps k s = .next u ∧ Encoding u)

/-- 44_encode_driver.md (result, properties of every stream): the stream is the header, well-formed chunks of which no
two consecutive are both Index(0), and the end marker. -/
def Obligations.EncodedStreamLayout : Prop :=
  ∀ (s : State) (w h : BitVec 32) (px : List Color), Waiting s → s.host = [.encode w h px] →
    px.length = w.toNat * h.toNat →
    ∃ (n : Nat) (cs : List Instr),
      observed .encode n s = some (.stream
        ([0x71, 0x6F, 0x69, 0x66] ++ be32Bytes w ++ be32Bytes h ++ [4, 0] ++ cs.flatMap encode ++
          [0, 0, 0, 0, 0, 0, 0, 1])) ∧
      (∀ c ∈ cs, c.wellFormed = true ∧ c ≠ .endMark) ∧
      (∀ a b, a ++ [.index 0, .index 0] ++ b ≠ cs)

/-- R161: let a stream be produced by ENCODE and decoded. When the decoder has read the chunks the encoder had emitted
after its first `i` pixels, their PREV and CACHE agree, and the decoder has produced those pixels but the run still
pending. -/
def Obligations.EncoderAndDecoderAgree : Prop :=
  ∀ (w h : BitVec 32) (px : List Color) (s d : State), Waiting s → s.host = [.encode w h px] →
    px.length = w.toNat * h.toNat → Waiting d →
    (∀ cap, d.cfg.pixelStoreCapacity = some cap → w.toNat * h.toNat + 7 ≤ cap) →
    ∃ f, steps (w.toNat * h.toNat + 3) s = .next f ∧
      ∀ i, i ≤ w.toNat * h.toNat →
        ∃ e m r, steps (i + 2) s = .next e ∧
          steps m { d with host := [.decode f.outb] } = .next r ∧
          r.phase = .decChunks ∧ r.pos = e.outb.length ∧ r.prev = e.prev ∧
          (∀ k, r.cacheRead k = e.cacheRead k) ∧ e.run.toNat ≤ i ∧ r.outpix = px.take (i - e.run.toNat)

/-- R227: DECODE(ENCODE(W, H, P)) succeeds with width W, height H and the pixels P. The store must hold `W * H + 7`
pixels, as the append rule says a valid stream needs. -/
def Obligations.DecodeOfEncodeIsTheImage : Prop :=
  ∀ (w h : BitVec 32) (px : List Color) (s d : State), Waiting s → s.host = [.encode w h px] →
    px.length = w.toNat * h.toNat → Waiting d →
    (∀ cap, d.cfg.pixelStoreCapacity = some cap → w.toNat * h.toNat + 7 ≤ cap) →
    ∃ bytes n m, observed .encode n s = some (.stream bytes) ∧
      observed .decode m { d with host := [.decode bytes] } = some (.image w h px)
end

