-- ==== Sys2Proof/Laws/State.lean ====
section
/-! SUPPORT. One lemma per field of State per named update: what the update writes, and that it leaves the rest. -/

namespace Sys2Proof.Machine.State

variable (s : State)

@[simp] theorem cacheWrite_prev (c : Color) : (s.cacheWrite c).prev = s.prev := rfl
@[simp] theorem cacheWrite_cache (c : Color) : (s.cacheWrite c).cache = s.cache.set c.hash.toNat c c.hash.isLt := rfl
@[simp] theorem cacheWrite_run (c : Color) : (s.cacheWrite c).run = s.run := rfl
@[simp] theorem cacheWrite_fre (c : Color) : (s.cacheWrite c).fre = s.fre := rfl
@[simp] theorem cacheWrite_zc (c : Color) : (s.cacheWrite c).zc = s.zc := rfl
@[simp] theorem cacheWrite_pos (c : Color) : (s.cacheWrite c).pos = s.pos := rfl
@[simp] theorem cacheWrite_idx (c : Color) : (s.cacheWrite c).idx = s.idx := rfl
@[simp] theorem cacheWrite_hdr (c : Color) : (s.cacheWrite c).hdr = s.hdr := rfl
@[simp] theorem cacheWrite_outpix (c : Color) : (s.cacheWrite c).outpix = s.outpix := rfl
@[simp] theorem cacheWrite_outb (c : Color) : (s.cacheWrite c).outb = s.outb := rfl
@[simp] theorem cacheWrite_phase (c : Color) : (s.cacheWrite c).phase = s.phase := rfl
@[simp] theorem cacheWrite_status (c : Color) : (s.cacheWrite c).status = s.status := rfl
@[simp] theorem cacheWrite_input (c : Color) : (s.cacheWrite c).input = s.input := rfl
@[simp] theorem cacheWrite_wIn (c : Color) : (s.cacheWrite c).wIn = s.wIn := rfl
@[simp] theorem cacheWrite_hIn (c : Color) : (s.cacheWrite c).hIn = s.hIn := rfl
@[simp] theorem cacheWrite_pixIn (c : Color) : (s.cacheWrite c).pixIn = s.pixIn := rfl
@[simp] theorem cacheWrite_host (c : Color) : (s.cacheWrite c).host = s.host := rfl
@[simp] theorem cacheWrite_cfg (c : Color) : (s.cacheWrite c).cfg = s.cfg := rfl

@[simp] theorem setPrev_prev (c : Color) : (s.setPrev c).prev = c := rfl
@[simp] theorem setPrev_cache (c : Color) : (s.setPrev c).cache = s.cache := rfl
@[simp] theorem setPrev_run (c : Color) : (s.setPrev c).run = s.run := rfl
@[simp] theorem setPrev_fre (c : Color) : (s.setPrev c).fre = s.fre := rfl
@[simp] theorem setPrev_zc (c : Color) : (s.setPrev c).zc = s.zc := rfl
@[simp] theorem setPrev_pos (c : Color) : (s.setPrev c).pos = s.pos := rfl
@[simp] theorem setPrev_idx (c : Color) : (s.setPrev c).idx = s.idx := rfl
@[simp] theorem setPrev_hdr (c : Color) : (s.setPrev c).hdr = s.hdr := rfl
@[simp] theorem setPrev_outpix (c : Color) : (s.setPrev c).outpix = s.outpix := rfl
@[simp] theorem setPrev_outb (c : Color) : (s.setPrev c).outb = s.outb := rfl
@[simp] theorem setPrev_phase (c : Color) : (s.setPrev c).phase = s.phase := rfl
@[simp] theorem setPrev_status (c : Color) : (s.setPrev c).status = s.status := rfl
@[simp] theorem setPrev_input (c : Color) : (s.setPrev c).input = s.input := rfl
@[simp] theorem setPrev_wIn (c : Color) : (s.setPrev c).wIn = s.wIn := rfl
@[simp] theorem setPrev_hIn (c : Color) : (s.setPrev c).hIn = s.hIn := rfl
@[simp] theorem setPrev_pixIn (c : Color) : (s.setPrev c).pixIn = s.pixIn := rfl
@[simp] theorem setPrev_host (c : Color) : (s.setPrev c).host = s.host := rfl
@[simp] theorem setPrev_cfg (c : Color) : (s.setPrev c).cfg = s.cfg := rfl

@[simp] theorem setZc_prev (n : Nat) : (s.setZc n).prev = s.prev := rfl
@[simp] theorem setZc_cache (n : Nat) : (s.setZc n).cache = s.cache := rfl
@[simp] theorem setZc_run (n : Nat) : (s.setZc n).run = s.run := rfl
@[simp] theorem setZc_fre (n : Nat) : (s.setZc n).fre = s.fre := rfl
@[simp] theorem setZc_zc (n : Nat) : (s.setZc n).zc = n := rfl
@[simp] theorem setZc_pos (n : Nat) : (s.setZc n).pos = s.pos := rfl
@[simp] theorem setZc_idx (n : Nat) : (s.setZc n).idx = s.idx := rfl
@[simp] theorem setZc_hdr (n : Nat) : (s.setZc n).hdr = s.hdr := rfl
@[simp] theorem setZc_outpix (n : Nat) : (s.setZc n).outpix = s.outpix := rfl
@[simp] theorem setZc_outb (n : Nat) : (s.setZc n).outb = s.outb := rfl
@[simp] theorem setZc_phase (n : Nat) : (s.setZc n).phase = s.phase := rfl
@[simp] theorem setZc_status (n : Nat) : (s.setZc n).status = s.status := rfl
@[simp] theorem setZc_input (n : Nat) : (s.setZc n).input = s.input := rfl
@[simp] theorem setZc_wIn (n : Nat) : (s.setZc n).wIn = s.wIn := rfl
@[simp] theorem setZc_hIn (n : Nat) : (s.setZc n).hIn = s.hIn := rfl
@[simp] theorem setZc_pixIn (n : Nat) : (s.setZc n).pixIn = s.pixIn := rfl
@[simp] theorem setZc_host (n : Nat) : (s.setZc n).host = s.host := rfl
@[simp] theorem setZc_cfg (n : Nat) : (s.setZc n).cfg = s.cfg := rfl

@[simp] theorem advance_prev (n : Nat) : (s.advance n).prev = s.prev := rfl
@[simp] theorem advance_cache (n : Nat) : (s.advance n).cache = s.cache := rfl
@[simp] theorem advance_run (n : Nat) : (s.advance n).run = s.run := rfl
@[simp] theorem advance_fre (n : Nat) : (s.advance n).fre = s.fre := rfl
@[simp] theorem advance_zc (n : Nat) : (s.advance n).zc = s.zc := rfl
@[simp] theorem advance_pos (n : Nat) : (s.advance n).pos = s.pos + n := rfl
@[simp] theorem advance_idx (n : Nat) : (s.advance n).idx = s.idx := rfl
@[simp] theorem advance_hdr (n : Nat) : (s.advance n).hdr = s.hdr := rfl
@[simp] theorem advance_outpix (n : Nat) : (s.advance n).outpix = s.outpix := rfl
@[simp] theorem advance_outb (n : Nat) : (s.advance n).outb = s.outb := rfl
@[simp] theorem advance_phase (n : Nat) : (s.advance n).phase = s.phase := rfl
@[simp] theorem advance_status (n : Nat) : (s.advance n).status = s.status := rfl
@[simp] theorem advance_input (n : Nat) : (s.advance n).input = s.input := rfl
@[simp] theorem advance_wIn (n : Nat) : (s.advance n).wIn = s.wIn := rfl
@[simp] theorem advance_hIn (n : Nat) : (s.advance n).hIn = s.hIn := rfl
@[simp] theorem advance_pixIn (n : Nat) : (s.advance n).pixIn = s.pixIn := rfl
@[simp] theorem advance_host (n : Nat) : (s.advance n).host = s.host := rfl
@[simp] theorem advance_cfg (n : Nat) : (s.advance n).cfg = s.cfg := rfl

@[simp] theorem setPhase_prev (p : Phase) : (s.setPhase p).prev = s.prev := rfl
@[simp] theorem setPhase_cache (p : Phase) : (s.setPhase p).cache = s.cache := rfl
@[simp] theorem setPhase_run (p : Phase) : (s.setPhase p).run = s.run := rfl
@[simp] theorem setPhase_fre (p : Phase) : (s.setPhase p).fre = s.fre := rfl
@[simp] theorem setPhase_zc (p : Phase) : (s.setPhase p).zc = s.zc := rfl
@[simp] theorem setPhase_pos (p : Phase) : (s.setPhase p).pos = s.pos := rfl
@[simp] theorem setPhase_idx (p : Phase) : (s.setPhase p).idx = s.idx := rfl
@[simp] theorem setPhase_hdr (p : Phase) : (s.setPhase p).hdr = s.hdr := rfl
@[simp] theorem setPhase_outpix (p : Phase) : (s.setPhase p).outpix = s.outpix := rfl
@[simp] theorem setPhase_outb (p : Phase) : (s.setPhase p).outb = s.outb := rfl
@[simp] theorem setPhase_phase (p : Phase) : (s.setPhase p).phase = p := rfl
@[simp] theorem setPhase_status (p : Phase) : (s.setPhase p).status = s.status := rfl
@[simp] theorem setPhase_input (p : Phase) : (s.setPhase p).input = s.input := rfl
@[simp] theorem setPhase_wIn (p : Phase) : (s.setPhase p).wIn = s.wIn := rfl
@[simp] theorem setPhase_hIn (p : Phase) : (s.setPhase p).hIn = s.hIn := rfl
@[simp] theorem setPhase_pixIn (p : Phase) : (s.setPhase p).pixIn = s.pixIn := rfl
@[simp] theorem setPhase_host (p : Phase) : (s.setPhase p).host = s.host := rfl
@[simp] theorem setPhase_cfg (p : Phase) : (s.setPhase p).cfg = s.cfg := rfl

@[simp] theorem setRun_prev (n : BitVec 64) : (s.setRun n).prev = s.prev := rfl
@[simp] theorem setRun_cache (n : BitVec 64) : (s.setRun n).cache = s.cache := rfl
@[simp] theorem setRun_run (n : BitVec 64) : (s.setRun n).run = n := rfl
@[simp] theorem setRun_fre (n : BitVec 64) : (s.setRun n).fre = s.fre := rfl
@[simp] theorem setRun_zc (n : BitVec 64) : (s.setRun n).zc = s.zc := rfl
@[simp] theorem setRun_pos (n : BitVec 64) : (s.setRun n).pos = s.pos := rfl
@[simp] theorem setRun_idx (n : BitVec 64) : (s.setRun n).idx = s.idx := rfl
@[simp] theorem setRun_hdr (n : BitVec 64) : (s.setRun n).hdr = s.hdr := rfl
@[simp] theorem setRun_outpix (n : BitVec 64) : (s.setRun n).outpix = s.outpix := rfl
@[simp] theorem setRun_outb (n : BitVec 64) : (s.setRun n).outb = s.outb := rfl
@[simp] theorem setRun_phase (n : BitVec 64) : (s.setRun n).phase = s.phase := rfl
@[simp] theorem setRun_status (n : BitVec 64) : (s.setRun n).status = s.status := rfl
@[simp] theorem setRun_input (n : BitVec 64) : (s.setRun n).input = s.input := rfl
@[simp] theorem setRun_wIn (n : BitVec 64) : (s.setRun n).wIn = s.wIn := rfl
@[simp] theorem setRun_hIn (n : BitVec 64) : (s.setRun n).hIn = s.hIn := rfl
@[simp] theorem setRun_pixIn (n : BitVec 64) : (s.setRun n).pixIn = s.pixIn := rfl
@[simp] theorem setRun_host (n : BitVec 64) : (s.setRun n).host = s.host := rfl
@[simp] theorem setRun_cfg (n : BitVec 64) : (s.setRun n).cfg = s.cfg := rfl

@[simp] theorem setFre_prev (b : Bool) : (s.setFre b).prev = s.prev := rfl
@[simp] theorem setFre_cache (b : Bool) : (s.setFre b).cache = s.cache := rfl
@[simp] theorem setFre_run (b : Bool) : (s.setFre b).run = s.run := rfl
@[simp] theorem setFre_fre (b : Bool) : (s.setFre b).fre = b := rfl
@[simp] theorem setFre_zc (b : Bool) : (s.setFre b).zc = s.zc := rfl
@[simp] theorem setFre_pos (b : Bool) : (s.setFre b).pos = s.pos := rfl
@[simp] theorem setFre_idx (b : Bool) : (s.setFre b).idx = s.idx := rfl
@[simp] theorem setFre_hdr (b : Bool) : (s.setFre b).hdr = s.hdr := rfl
@[simp] theorem setFre_outpix (b : Bool) : (s.setFre b).outpix = s.outpix := rfl
@[simp] theorem setFre_outb (b : Bool) : (s.setFre b).outb = s.outb := rfl
@[simp] theorem setFre_phase (b : Bool) : (s.setFre b).phase = s.phase := rfl
@[simp] theorem setFre_status (b : Bool) : (s.setFre b).status = s.status := rfl
@[simp] theorem setFre_input (b : Bool) : (s.setFre b).input = s.input := rfl
@[simp] theorem setFre_wIn (b : Bool) : (s.setFre b).wIn = s.wIn := rfl
@[simp] theorem setFre_hIn (b : Bool) : (s.setFre b).hIn = s.hIn := rfl
@[simp] theorem setFre_pixIn (b : Bool) : (s.setFre b).pixIn = s.pixIn := rfl
@[simp] theorem setFre_host (b : Bool) : (s.setFre b).host = s.host := rfl
@[simp] theorem setFre_cfg (b : Bool) : (s.setFre b).cfg = s.cfg := rfl

@[simp] theorem nextPixel_prev : (s.nextPixel).prev = s.prev := rfl
@[simp] theorem nextPixel_cache : (s.nextPixel).cache = s.cache := rfl
@[simp] theorem nextPixel_run : (s.nextPixel).run = s.run := rfl
@[simp] theorem nextPixel_fre : (s.nextPixel).fre = s.fre := rfl
@[simp] theorem nextPixel_zc : (s.nextPixel).zc = s.zc := rfl
@[simp] theorem nextPixel_pos : (s.nextPixel).pos = s.pos := rfl
@[simp] theorem nextPixel_idx : (s.nextPixel).idx = s.idx + 1 := rfl
@[simp] theorem nextPixel_hdr : (s.nextPixel).hdr = s.hdr := rfl
@[simp] theorem nextPixel_outpix : (s.nextPixel).outpix = s.outpix := rfl
@[simp] theorem nextPixel_outb : (s.nextPixel).outb = s.outb := rfl
@[simp] theorem nextPixel_phase : (s.nextPixel).phase = s.phase := rfl
@[simp] theorem nextPixel_status : (s.nextPixel).status = s.status := rfl
@[simp] theorem nextPixel_input : (s.nextPixel).input = s.input := rfl
@[simp] theorem nextPixel_wIn : (s.nextPixel).wIn = s.wIn := rfl
@[simp] theorem nextPixel_hIn : (s.nextPixel).hIn = s.hIn := rfl
@[simp] theorem nextPixel_pixIn : (s.nextPixel).pixIn = s.pixIn := rfl
@[simp] theorem nextPixel_host : (s.nextPixel).host = s.host := rfl
@[simp] theorem nextPixel_cfg : (s.nextPixel).cfg = s.cfg := rfl

@[simp] theorem setHdr_prev (h : Header) : (s.setHdr h).prev = s.prev := rfl
@[simp] theorem setHdr_cache (h : Header) : (s.setHdr h).cache = s.cache := rfl
@[simp] theorem setHdr_run (h : Header) : (s.setHdr h).run = s.run := rfl
@[simp] theorem setHdr_fre (h : Header) : (s.setHdr h).fre = s.fre := rfl
@[simp] theorem setHdr_zc (h : Header) : (s.setHdr h).zc = s.zc := rfl
@[simp] theorem setHdr_pos (h : Header) : (s.setHdr h).pos = s.pos := rfl
@[simp] theorem setHdr_idx (h : Header) : (s.setHdr h).idx = s.idx := rfl
@[simp] theorem setHdr_hdr (h : Header) : (s.setHdr h).hdr = h := rfl
@[simp] theorem setHdr_outpix (h : Header) : (s.setHdr h).outpix = s.outpix := rfl
@[simp] theorem setHdr_outb (h : Header) : (s.setHdr h).outb = s.outb := rfl
@[simp] theorem setHdr_phase (h : Header) : (s.setHdr h).phase = s.phase := rfl
@[simp] theorem setHdr_status (h : Header) : (s.setHdr h).status = s.status := rfl
@[simp] theorem setHdr_input (h : Header) : (s.setHdr h).input = s.input := rfl
@[simp] theorem setHdr_wIn (h : Header) : (s.setHdr h).wIn = s.wIn := rfl
@[simp] theorem setHdr_hIn (h : Header) : (s.setHdr h).hIn = s.hIn := rfl
@[simp] theorem setHdr_pixIn (h : Header) : (s.setHdr h).pixIn = s.pixIn := rfl
@[simp] theorem setHdr_host (h : Header) : (s.setHdr h).host = s.host := rfl
@[simp] theorem setHdr_cfg (h : Header) : (s.setHdr h).cfg = s.cfg := rfl

@[simp] theorem setOutpix_prev (l : List Color) : (s.setOutpix l).prev = s.prev := rfl
@[simp] theorem setOutpix_cache (l : List Color) : (s.setOutpix l).cache = s.cache := rfl
@[simp] theorem setOutpix_run (l : List Color) : (s.setOutpix l).run = s.run := rfl
@[simp] theorem setOutpix_fre (l : List Color) : (s.setOutpix l).fre = s.fre := rfl
@[simp] theorem setOutpix_zc (l : List Color) : (s.setOutpix l).zc = s.zc := rfl
@[simp] theorem setOutpix_pos (l : List Color) : (s.setOutpix l).pos = s.pos := rfl
@[simp] theorem setOutpix_idx (l : List Color) : (s.setOutpix l).idx = s.idx := rfl
@[simp] theorem setOutpix_hdr (l : List Color) : (s.setOutpix l).hdr = s.hdr := rfl
@[simp] theorem setOutpix_outpix (l : List Color) : (s.setOutpix l).outpix = l := rfl
@[simp] theorem setOutpix_outb (l : List Color) : (s.setOutpix l).outb = s.outb := rfl
@[simp] theorem setOutpix_phase (l : List Color) : (s.setOutpix l).phase = s.phase := rfl
@[simp] theorem setOutpix_status (l : List Color) : (s.setOutpix l).status = s.status := rfl
@[simp] theorem setOutpix_input (l : List Color) : (s.setOutpix l).input = s.input := rfl
@[simp] theorem setOutpix_wIn (l : List Color) : (s.setOutpix l).wIn = s.wIn := rfl
@[simp] theorem setOutpix_hIn (l : List Color) : (s.setOutpix l).hIn = s.hIn := rfl
@[simp] theorem setOutpix_pixIn (l : List Color) : (s.setOutpix l).pixIn = s.pixIn := rfl
@[simp] theorem setOutpix_host (l : List Color) : (s.setOutpix l).host = s.host := rfl
@[simp] theorem setOutpix_cfg (l : List Color) : (s.setOutpix l).cfg = s.cfg := rfl

@[simp] theorem pushPixel_prev (p : Color) : (s.pushPixel p).prev = s.prev := rfl
@[simp] theorem pushPixel_cache (p : Color) : (s.pushPixel p).cache = s.cache := rfl
@[simp] theorem pushPixel_run (p : Color) : (s.pushPixel p).run = s.run := rfl
@[simp] theorem pushPixel_fre (p : Color) : (s.pushPixel p).fre = s.fre := rfl
@[simp] theorem pushPixel_zc (p : Color) : (s.pushPixel p).zc = s.zc := rfl
@[simp] theorem pushPixel_pos (p : Color) : (s.pushPixel p).pos = s.pos := rfl
@[simp] theorem pushPixel_idx (p : Color) : (s.pushPixel p).idx = s.idx := rfl
@[simp] theorem pushPixel_hdr (p : Color) : (s.pushPixel p).hdr = s.hdr := rfl
@[simp] theorem pushPixel_outpix (p : Color) : (s.pushPixel p).outpix = s.outpix ++ [p] := rfl
@[simp] theorem pushPixel_outb (p : Color) : (s.pushPixel p).outb = s.outb := rfl
@[simp] theorem pushPixel_phase (p : Color) : (s.pushPixel p).phase = s.phase := rfl
@[simp] theorem pushPixel_status (p : Color) : (s.pushPixel p).status = s.status := rfl
@[simp] theorem pushPixel_input (p : Color) : (s.pushPixel p).input = s.input := rfl
@[simp] theorem pushPixel_wIn (p : Color) : (s.pushPixel p).wIn = s.wIn := rfl
@[simp] theorem pushPixel_hIn (p : Color) : (s.pushPixel p).hIn = s.hIn := rfl
@[simp] theorem pushPixel_pixIn (p : Color) : (s.pushPixel p).pixIn = s.pixIn := rfl
@[simp] theorem pushPixel_host (p : Color) : (s.pushPixel p).host = s.host := rfl
@[simp] theorem pushPixel_cfg (p : Color) : (s.pushPixel p).cfg = s.cfg := rfl

@[simp] theorem emit_prev (bs : List Byte) : (s.emit bs).prev = s.prev := rfl
@[simp] theorem emit_cache (bs : List Byte) : (s.emit bs).cache = s.cache := rfl
@[simp] theorem emit_run (bs : List Byte) : (s.emit bs).run = s.run := rfl
@[simp] theorem emit_fre (bs : List Byte) : (s.emit bs).fre = s.fre := rfl
@[simp] theorem emit_zc (bs : List Byte) : (s.emit bs).zc = s.zc := rfl
@[simp] theorem emit_pos (bs : List Byte) : (s.emit bs).pos = s.pos := rfl
@[simp] theorem emit_idx (bs : List Byte) : (s.emit bs).idx = s.idx := rfl
@[simp] theorem emit_hdr (bs : List Byte) : (s.emit bs).hdr = s.hdr := rfl
@[simp] theorem emit_outpix (bs : List Byte) : (s.emit bs).outpix = s.outpix := rfl
@[simp] theorem emit_outb (bs : List Byte) : (s.emit bs).outb = s.outb ++ bs := rfl
@[simp] theorem emit_phase (bs : List Byte) : (s.emit bs).phase = s.phase := rfl
@[simp] theorem emit_status (bs : List Byte) : (s.emit bs).status = s.status := rfl
@[simp] theorem emit_input (bs : List Byte) : (s.emit bs).input = s.input := rfl
@[simp] theorem emit_wIn (bs : List Byte) : (s.emit bs).wIn = s.wIn := rfl
@[simp] theorem emit_hIn (bs : List Byte) : (s.emit bs).hIn = s.hIn := rfl
@[simp] theorem emit_pixIn (bs : List Byte) : (s.emit bs).pixIn = s.pixIn := rfl
@[simp] theorem emit_host (bs : List Byte) : (s.emit bs).host = s.host := rfl
@[simp] theorem emit_cfg (bs : List Byte) : (s.emit bs).cfg = s.cfg := rfl

@[simp] theorem enterError_prev (e : Error) : (s.enterError e).prev = s.prev := rfl
@[simp] theorem enterError_cache (e : Error) : (s.enterError e).cache = s.cache := rfl
@[simp] theorem enterError_run (e : Error) : (s.enterError e).run = s.run := rfl
@[simp] theorem enterError_fre (e : Error) : (s.enterError e).fre = s.fre := rfl
@[simp] theorem enterError_zc (e : Error) : (s.enterError e).zc = s.zc := rfl
@[simp] theorem enterError_pos (e : Error) : (s.enterError e).pos = s.pos := rfl
@[simp] theorem enterError_idx (e : Error) : (s.enterError e).idx = s.idx := rfl
@[simp] theorem enterError_hdr (e : Error) : (s.enterError e).hdr = s.hdr := rfl
@[simp] theorem enterError_outpix (e : Error) : (s.enterError e).outpix = s.outpix := rfl
@[simp] theorem enterError_outb (e : Error) : (s.enterError e).outb = s.outb := rfl
@[simp] theorem enterError_phase (e : Error) : (s.enterError e).phase = .failed := rfl
@[simp] theorem enterError_status (e : Error) : (s.enterError e).status = .error e := rfl
@[simp] theorem enterError_input (e : Error) : (s.enterError e).input = s.input := rfl
@[simp] theorem enterError_wIn (e : Error) : (s.enterError e).wIn = s.wIn := rfl
@[simp] theorem enterError_hIn (e : Error) : (s.enterError e).hIn = s.hIn := rfl
@[simp] theorem enterError_pixIn (e : Error) : (s.enterError e).pixIn = s.pixIn := rfl
@[simp] theorem enterError_host (e : Error) : (s.enterError e).host = s.host := rfl
@[simp] theorem enterError_cfg (e : Error) : (s.enterError e).cfg = s.cfg := rfl

@[simp] theorem initRegs_prev : (s.initRegs).prev = Color.black := rfl
@[simp] theorem initRegs_cache : (s.initRegs).cache = Vector.replicate 64 Color.trans := rfl
@[simp] theorem initRegs_run : (s.initRegs).run = 0 := rfl
@[simp] theorem initRegs_fre : (s.initRegs).fre = false := rfl
@[simp] theorem initRegs_zc : (s.initRegs).zc = 0 := rfl
@[simp] theorem initRegs_pos : (s.initRegs).pos = 0 := rfl
@[simp] theorem initRegs_idx : (s.initRegs).idx = 0 := rfl
@[simp] theorem initRegs_hdr : (s.initRegs).hdr = s.hdr := rfl
@[simp] theorem initRegs_outpix : (s.initRegs).outpix = [] := rfl
@[simp] theorem initRegs_outb : (s.initRegs).outb = [] := rfl
@[simp] theorem initRegs_phase : (s.initRegs).phase = s.phase := rfl
@[simp] theorem initRegs_status : (s.initRegs).status = .ok := rfl
@[simp] theorem initRegs_input : (s.initRegs).input = s.input := rfl
@[simp] theorem initRegs_wIn : (s.initRegs).wIn = s.wIn := rfl
@[simp] theorem initRegs_hIn : (s.initRegs).hIn = s.hIn := rfl
@[simp] theorem initRegs_pixIn : (s.initRegs).pixIn = s.pixIn := rfl
@[simp] theorem initRegs_host : (s.initRegs).host = s.host := rfl
@[simp] theorem initRegs_cfg : (s.initRegs).cfg = s.cfg := rfl

end Sys2Proof.Machine.State
end

