-- ==== Sys2Proof/Laws/Cache.lean ====
section
/-! SUPPORT. The cache primitives (42_predictor_cache.md R152): read after write, which updates leave every slot
alone, and that every operation keeps colors at their own slots. -/

namespace Sys2Proof.Machine

theorem cacheRead_congr {s t : State} (h : t.cache = s.cache) (k : BitVec 6) : t.cacheRead k = s.cacheRead k := by
  simp only [State.cacheRead, h]

theorem cacheRead_cacheWrite (s : State) (c : Color) (k : BitVec 6) :
    (s.cacheWrite c).cacheRead k = if k = c.hash then c else s.cacheRead k := by
  simp only [State.cacheRead, State.cacheWrite]
  by_cases h : k = c.hash
  · subst h; simp
  · have hne : c.hash.toNat ≠ k.toNat := fun e => h (BitVec.eq_of_toNat_eq e.symm)
    simp [h, Vector.getElem_set_ne _ _ hne]

@[simp] theorem cacheRead_cacheWrite_self (s : State) (c : Color) : (s.cacheWrite c).cacheRead c.hash = c := by
  simp [cacheRead_cacheWrite]

section
variable (s : State) (k : BitVec 6)

@[simp] theorem cacheRead_setPrev (c : Color) : (s.setPrev c).cacheRead k = s.cacheRead k := rfl
@[simp] theorem cacheRead_setZc (n : Nat) : (s.setZc n).cacheRead k = s.cacheRead k := rfl
@[simp] theorem cacheRead_advance (n : Nat) : (s.advance n).cacheRead k = s.cacheRead k := rfl
@[simp] theorem cacheRead_setPhase (p : Phase) : (s.setPhase p).cacheRead k = s.cacheRead k := rfl
@[simp] theorem cacheRead_setRun (n : BitVec 64) : (s.setRun n).cacheRead k = s.cacheRead k := rfl
@[simp] theorem cacheRead_setFre (b : Bool) : (s.setFre b).cacheRead k = s.cacheRead k := rfl
@[simp] theorem cacheRead_nextPixel : s.nextPixel.cacheRead k = s.cacheRead k := rfl
@[simp] theorem cacheRead_setHdr (h : Header) : (s.setHdr h).cacheRead k = s.cacheRead k := rfl
@[simp] theorem cacheRead_setOutpix (l : List Color) : (s.setOutpix l).cacheRead k = s.cacheRead k := rfl
@[simp] theorem cacheRead_pushPixel (p : Color) : (s.pushPixel p).cacheRead k = s.cacheRead k := rfl
@[simp] theorem cacheRead_emit (bs : List Byte) : (s.emit bs).cacheRead k = s.cacheRead k := rfl
@[simp] theorem cacheRead_enterError (e : Error) : (s.enterError e).cacheRead k = s.cacheRead k := rfl

end

@[simp] theorem cacheRead_initRegs (s : State) (k : BitVec 6) : s.initRegs.cacheRead k = Color.trans := by
  simp only [State.cacheRead, State.initRegs_cache]
  exact Vector.getElem_replicate _

/-- A cache write that writes what the slot already holds changes nothing (44_encode_driver.md R221). -/
theorem cacheWrite_eq_self {s : State} {c : Color} (h : s.cacheRead c.hash = c) : s.cacheWrite c = s := by
  have hset : s.cache.set c.hash.toNat c c.hash.isLt = s.cache := by
    apply Vector.ext
    intro i hi
    by_cases e : c.hash.toNat = i
    · subst e; simpa [State.cacheRead] using h.symm
    · exact Vector.getElem_set_ne _ _ e
  simp only [State.cacheWrite, hset]

/-- Two caches that read alike are equal. -/
theorem cache_ext {s t : State} (h : ∀ k, s.cacheRead k = t.cacheRead k) : s.cache = t.cache := by
  apply Vector.ext
  intro i hi
  have hk := h (BitVec.ofNat 6 i)
  have e : i % 64 = i := Nat.mod_eq_of_lt hi
  simpa [State.cacheRead, BitVec.toNat_ofNat, e] using hk

theorem CacheOk.congr {s t : State} (h : CacheOk s) (e : t.cache = s.cache) : CacheOk t := by
  intro k
  rw [cacheRead_congr e]
  exact h k

theorem CacheOk.cacheWrite {s : State} (h : CacheOk s) (c : Color) : CacheOk (s.cacheWrite c) := by
  intro k
  rw [cacheRead_cacheWrite]
  split
  · next e => exact .inr e.symm
  · exact h k

theorem CacheOk.initRegs (s : State) : CacheOk s.initRegs := fun k => .inl (cacheRead_initRegs s k)

end Sys2Proof.Machine
end

