-- ==== Sys2Proof/Laws/Append.lean ====
section
/-! SUPPORT. Appending pixels (43_decode_driver.md R185): what one append and a whole chunk's appends can do. -/

namespace Sys2Proof.Machine

theorem Room.mono {s : State} {m n : Nat} (h : Room s n) (hm : m ≤ n) : Room s m := fun c hc => by
  have := h c hc
  omega

theorem room_of_unbounded {s : State} (h : s.cfg.pixelStoreCapacity = none) (k : Nat) : Room s k := by
  intro c hc
  rw [h] at hc
  cases hc

theorem append_ok {s : State} (h : Room s 1) (p : Color) : append p s = .ok (s.pushPixel p) := by
  unfold append
  split
  · rfl
  · next c hc =>
    have := h c hc
    rw [if_neg (by omega)]

theorem append_full {s : State} {c : Nat} (hc : s.cfg.pixelStoreCapacity = some c) (h : c ≤ s.outpix.length)
    (p : Color) : append p s = .raised (.bufferBounds s.outpix.length) s := by
  simp only [append, hc, if_pos h]

theorem setOutpix_pushPixel (s : State) (p : Color) (l : List Color) :
    (s.pushPixel p).setOutpix ((s.pushPixel p).outpix ++ l) = s.setOutpix (s.outpix ++ p :: l) := by
  simp [State.pushPixel, State.setOutpix]

/-- With room for all of them, a chunk's pixels are appended in order. -/
theorem appendAll_ok {px : List Color} : ∀ {s : State}, Room s px.length →
    appendAll px s = .ok (s.setOutpix (s.outpix ++ px)) := by
  induction px with
  | nil => intro s _; simp [appendAll, State.setOutpix]
  | cons p ps ih =>
    intro s h
    have h1 : Room s 1 := h.mono (by simp)
    have h2 : Room (s.pushPixel p) ps.length := by
      intro c hc
      have := h c hc
      simp at this ⊢
      omega
    rw [appendAll, append_ok h1, Attempt.bind, ih h2, setOutpix_pushPixel]

/-- Without room for all of them, the store is filled and the next append raises (R185). -/
theorem appendAll_full {c : Nat} {px : List Color} : ∀ {s : State}, s.cfg.pixelStoreCapacity = some c →
    s.outpix.length ≤ c → c < s.outpix.length + px.length →
    appendAll px s =
      .raised (.bufferBounds c) (s.setOutpix (s.outpix ++ px.take (c - s.outpix.length))) := by
  induction px with
  | nil => intro s _ h1 h2; simp at h2; omega
  | cons p ps ih =>
    intro s hc h1 h2
    by_cases h : s.outpix.length = c
    · rw [appendAll, append_full hc (by omega), Attempt.bind, h]
      simp [State.setOutpix]
    · have hr : Room s 1 := fun c' hc' => by rw [hc] at hc'; cases hc'; omega
      rw [appendAll, append_ok hr, Attempt.bind, ih (s := s.pushPixel p) hc (by simp; omega) (by simp at h2 ⊢; omega)]
      have e : c - s.outpix.length = (c - (s.pushPixel p).outpix.length) + 1 := by simp; omega
      rw [setOutpix_pushPixel, e, List.take_succ_cons]

/-- Everything appends can do: all the pixels, or as many as fit and then BufferBoundsError. -/
theorem appendAll_cases (px : List Color) (s : State) :
    appendAll px s = .ok (s.setOutpix (s.outpix ++ px)) ∨
    ∃ n ix, appendAll px s = .raised (.bufferBounds ix) (s.setOutpix (s.outpix ++ px.take n)) := by
  induction px generalizing s with
  | nil => left; simp [appendAll, State.setOutpix]
  | cons p ps ih =>
    by_cases h : Room s 1
    · rw [appendAll, append_ok h, Attempt.bind]
      rcases ih (s.pushPixel p) with e | ⟨n, ix, e⟩
      · left; rw [e, setOutpix_pushPixel]
      · right; exact ⟨n + 1, ix, by rw [e, setOutpix_pushPixel, List.take_succ_cons]⟩
    · right
      simp only [Room, not_forall] at h
      obtain ⟨c, hc, hlt⟩ := h
      exact ⟨0, s.outpix.length, by
        rw [appendAll, append_full hc (by omega), Attempt.bind]; simp [State.setOutpix]⟩

/-- Pixels that were all appended had room. -/
theorem room_of_appendAll_ok {px : List Color} : ∀ {s t : State}, px ≠ [] → appendAll px s = .ok t →
    Room s px.length := by
  induction px with
  | nil => intro s t h; exact absurd rfl h
  | cons p ps ih =>
    intro s t _ h
    by_cases h1 : Room s 1
    · cases ps with
      | nil => exact h1
      | cons q qs =>
        rw [appendAll, append_ok h1, Attempt.bind] at h
        intro c hc
        have := ih (by simp) h c hc
        simp at this ⊢
        omega
    · simp only [Room, not_forall] at h1
      obtain ⟨c, hc, hlt⟩ := h1
      rw [appendAll, append_full hc (by omega)] at h
      cases h

/-- An append never overfills the store. -/
theorem appendAll_room {px : List Color} : ∀ {s : State}, Room s 0 →
    (∀ t, appendAll px s = .ok t → Room t 0) ∧ (∀ e t, appendAll px s = .raised e t → Room t 0) := by
  induction px with
  | nil =>
    intro s h
    refine ⟨fun t e => ?_, fun e t h' => ?_⟩
    · cases e; exact h
    · cases h'
  | cons p ps ih =>
    intro s h
    rw [appendAll]
    by_cases h1 : Room s 1
    · rw [append_ok h1, Attempt.bind]
      exact ih (s := s.pushPixel p) fun c hc => by have := h1 c hc; simpa using this
    · simp only [Room, not_forall] at h1
      obtain ⟨c, hc, hlt⟩ := h1
      rw [append_full hc (by omega), Attempt.bind]
      exact ⟨fun t e => (by cases e), fun e t h' => by cases h'; exact h⟩

end Sys2Proof.Machine
end

