-- ==== Sys2Proof/Laws/Chunk.lean ====
section
/-! SUPPORT. What running a chunk can do (43_decode_driver.md R182): its next state when the store has room, when it
has not, and when it ends the loop. -/

namespace Sys2Proof.Machine

/-- Which variants write the cache (42_predictor_cache.md R160). -/
def writesCache : Instr → Bool
  | .index _ => false
  | _ => true

/-- The state after a chunk `c` whose pixels end in `p`, all of them stored. -/
def afterChunk (c : Instr) (px : List Color) (p : Color) (s : State) : State :=
  { s with
    pos := s.pos + c.lengthBytes
    zc := zcAfter s.zc c
    outpix := s.outpix ++ px
    prev := p
    cache := if writesCache c then (s.cacheWrite p).cache else s.cache }

/-- The state in which a chunk finds the store full, after `n` of its pixels. -/
def midChunk (c : Instr) (px : List Color) (n : Nat) (s : State) : State :=
  { s with
    pos := s.pos + c.lengthBytes
    zc := zcAfter s.zc c
    outpix := s.outpix ++ px.take n }

theorem updatePredictor_eq (px : List Color) (p : Color) (c : Instr) (s t : State)
    (hp : px.getLastD s.prev = p)
    (ht : t = ((s.advance c.lengthBytes).setZc (zcAfter s.zc c)).setOutpix (s.outpix ++ px)) :
    updatePredictor px (writesCache c) t = afterChunk c px p s := by
  subst ht
  have h' : px.getLastD (((s.advance c.lengthBytes).setZc (zcAfter s.zc c)).setOutpix (s.outpix ++ px)).prev = p := by
    simpa using hp
  simp only [updatePredictor, h']
  unfold afterChunk
  cases writesCache c <;> rfl

/-- A chunk with room for its pixels. -/
theorem expandChunk_ok {c : Instr} {px : List Color} {p : Color} {s : State} (hr : Room s px.length)
    (hp : px.getLastD s.prev = p) :
    expandChunk c px (writesCache c) s = .ok (afterChunk c px p s) := by
  have hr' : Room ((s.advance c.lengthBytes).setZc (zcAfter s.zc c)) px.length := hr
  rw [expandChunk, appendAll_ok hr', Attempt.bind]
  exact congrArg Attempt.ok (updatePredictor_eq px p c s _ hp rfl)

/-- A chunk that finds a finite store full on the way (R185, R247). -/
theorem expandChunk_full {c : Instr} {px : List Color} {w : Bool} {cap : Nat} {s : State}
    (hc : s.cfg.pixelStoreCapacity = some cap) (h1 : s.outpix.length ≤ cap)
    (h2 : cap < s.outpix.length + px.length) :
    expandChunk c px w s = .raised (.bufferBounds cap) (midChunk c px (cap - s.outpix.length) s) := by
  have e := appendAll_full (s := (s.advance c.lengthBytes).setZc (zcAfter s.zc c)) (px := px) hc h1 h2
  rw [expandChunk, e, Attempt.bind]
  rfl

/-- Everything a chunk's expansion can do. -/
theorem expandChunk_cases (c : Instr) (px : List Color) (s : State) :
    expandChunk c px (writesCache c) s = .ok (afterChunk c px (px.getLastD s.prev) s) ∨
    ∃ n ix, expandChunk c px (writesCache c) s = .raised (.bufferBounds ix) (midChunk c px n s) := by
  rcases appendAll_cases px ((s.advance c.lengthBytes).setZc (zcAfter s.zc c)) with e | ⟨n, ix, e⟩
  · left
    rw [expandChunk, e, Attempt.bind]
    exact congrArg Attempt.ok (updatePredictor_eq px _ c s _ rfl rfl)
  · right
    exact ⟨n, ix, by rw [expandChunk, e, Attempt.bind]; rfl⟩

/-- A chunk's pixels are never none. -/
theorem applied_ne_nil (c : Instr) (s : State) : applied c s ≠ [] := by
  cases c <;> simp [applied, List.replicate_succ]

/-- Running a chunk that does not end the loop is its expansion (R182). -/
theorem exec_eq_expandChunk {c : Instr} {s : State} (hw : c.wellFormed = true) (hm : c ≠ .endMark)
    (he : endsLoop s.zc c = false) :
    exec c s = (expandChunk c (applied c s) (writesCache c) s).settle := by
  cases c with
  | rgb r g b => rfl
  | rgba r g b a => rfl
  | index k => simp only [exec, execIndex, lookupChunk, he]; rfl
  | diff dr dg db => rfl
  | luma dg drg dbg => rfl
  | run n => simp only [exec, execRun, if_pos hw]; rfl
  | endMark => exact absurd rfl hm

/-- A chunk that ends the loop is consumed and does nothing else (R184). -/
theorem exec_endsLoop {c : Instr} {s : State} (he : endsLoop s.zc c = true) :
    exec c s = .next { s with pos := s.pos + 1, phase := .decFinish } := by
  have hc : c = .index 1 := by simp [endsLoop] at he; exact he.2
  subst hc
  simp only [exec, execIndex, lookupChunk, he]
  rfl

/-- An ill-formed chunk is refused (R134, D24). -/
theorem exec_illFormed {c : Instr} {s : State} (hw : c.wellFormed = false) :
    exec c s = .refused (.illFormedChunk c) := by
  cases c with
  | run n => simp [exec, execRun, hw]
  | _ => simp [Instr.wellFormed] at hw

/-- The next state of a chunk with room for its pixels. -/
theorem exec_room {c : Instr} {s : State} (hw : c.wellFormed = true) (hm : c ≠ .endMark)
    (he : endsLoop s.zc c = false) (hr : Room s (applied c s).length) :
    exec c s = .next (afterChunk c (applied c s) ((applied c s).getLastD s.prev) s) := by
  rw [exec_eq_expandChunk hw hm he, expandChunk_ok hr rfl, Attempt.settle]

/-- Everything running one chunk can do: it is ill-formed and refused, it ends the loop, it is expanded, or the
store is full on the way and the operation fails. -/
theorem exec_cases (c : Instr) (s : State) (hm : c ≠ .endMark) :
    (c.wellFormed = false ∧ exec c s = .refused (.illFormedChunk c)) ∨
    (endsLoop s.zc c = true ∧ exec c s = .next { s with pos := s.pos + 1, phase := .decFinish }) ∨
    (endsLoop s.zc c = false ∧
      exec c s = .next (afterChunk c (applied c s) ((applied c s).getLastD s.prev) s)) ∨
    (endsLoop s.zc c = false ∧
      ∃ n ix, exec c s = .next ((midChunk c (applied c s) n s).enterError (.bufferBounds ix))) := by
  cases hw : c.wellFormed with
  | false => exact .inl ⟨rfl, exec_illFormed hw⟩
  | true =>
    cases he : endsLoop s.zc c with
    | true => exact .inr (.inl ⟨rfl, exec_endsLoop he⟩)
    | false =>
      rw [exec_eq_expandChunk hw hm he]
      rcases expandChunk_cases c (applied c s) s with e | ⟨n, ix, e⟩
      · exact .inr (.inr (.inl ⟨rfl, by rw [e, Attempt.settle]⟩))
      · exact .inr (.inr (.inr ⟨rfl, n, ix, by rw [e, Attempt.settle]⟩))

end Sys2Proof.Machine
end

