-- ==== Sys2Proof/Laws/EncoderLaws.lean ====
section
/-! SUPPORT. What the encoder's operations do (44_encode_driver.md R212 to R222): no serializer refusal, and the
state each step leaves. -/

namespace Sys2Proof.Machine

/-- Well-formed chunks are serialized, in order. -/
theorem serializeAll_ok {cs : List Instr} (h : ∀ c ∈ cs, c.wellFormed = true) :
    ∀ s : State, serializeAll cs s = .ok (s.emit (cs.flatMap encode)) := by
  induction cs with
  | nil => intro s; simp [serializeAll, State.emit]
  | cons c cs ih =>
    intro s
    have hc : c.wellFormed = true := h c (by simp)
    have e : serializeOne c s = .ok (s.emit (encode c)) := by simp [serializeOne, hc]
    rw [serializeAll, e]
    show serializeAll cs (s.emit (encode c)) = _
    rw [ih fun d hd => h d (by simp [hd])]
    simp [State.emit, List.append_assoc]

/-- Every chunk of a flush is a Run with a field of at most 61 (R214, R226). -/
theorem runChunks_run {c : Instr} : ∀ {fuel run : Nat}, c ∈ runChunks fuel run →
    ∃ n : BitVec 6, c = .run n ∧ n.toNat ≤ 61 := by
  intro fuel
  induction fuel with
  | zero => intro run h; simp [runChunks] at h
  | succ fuel ih =>
    intro run h
    rw [runChunks] at h
    split at h
    · simp at h
    · rcases List.mem_cons.mp h with e | h
      · refine ⟨_, e, ?_⟩
        have : min run Config.runMax - 1 < 64 := by simp only [Config.runMax]; omega
        rw [BitVec.toNat_ofNat, Nat.mod_eq_of_lt this]
        simp only [Config.runMax]
        omega
      · exact ih h

theorem runChunks_wellFormed {c : Instr} {fuel run : Nat} (h : c ∈ runChunks fuel run) : c.wellFormed = true := by
  obtain ⟨n, rfl, hn⟩ := runChunks_run h
  exact decide_eq_true hn

/-- A flush has chunks exactly when RUN is not 0. -/
theorem runChunks_isEmpty (run : Nat) : (runChunks run run).isEmpty = decide (run = 0) := by
  cases run with
  | zero => rfl
  | succ n => simp [runChunks]

/-- The bytes a flush of RUN = `n` emits. -/
def flushBytes (n : Nat) : List Byte := (runChunks n n).flatMap encode

/-- The state after a flush. -/
def flushed (s : State) : State :=
  firstRunUpdate (decide (s.run ≠ 0)) ((s.emit (flushBytes s.run.toNat)).setRun 0)

theorem flushRun_eq (s : State) : flushRun s = .ok (flushed s) := by
  simp only [flushRun]
  rw [serializeAll_ok fun c hc => runChunks_wellFormed hc]
  have e : (!(runChunks s.run.toNat s.run.toNat).isEmpty) = decide (s.run ≠ 0) := by
    rw [runChunks_isEmpty]
    by_cases h : s.run = 0#64
    · simp [h]
    · have : s.run.toNat ≠ 0 := fun h' => h (BitVec.eq_of_toNat_eq (by simpa using h'))
      simp [h, this]
  rw [e]
  rfl

/-- The cache after a flush (R215): PREV is written if a Run was emitted and none had been before. -/
theorem flushed_cacheRead (s : State) (k : BitVec 6) :
    (flushed s).cacheRead k =
      if s.run ≠ 0 ∧ s.fre = false ∧ k = s.prev.hash then s.prev else s.cacheRead k := by
  unfold flushed firstRunUpdate firstRunWrite
  by_cases h1 : s.run = 0#64
  · simp [h1]
  · cases h2 : s.fre
    · by_cases hk : k = s.prev.hash
      · simp [h1, h2, hk]
      · simp [h1, h2, hk, cacheRead_cacheWrite]
    · simp [h1, h2]

/-- A flush changes RUN, FRE, OUTB and the cache, and nothing else. -/
theorem flushed_frame (s : State) :
    flushed s = { s with
      run := 0, fre := s.fre || decide (s.run ≠ 0), outb := s.outb ++ flushBytes s.run.toNat,
      cache := (flushed s).cache } := by
  unfold flushed firstRunUpdate firstRunWrite freAfter
  by_cases h1 : s.run = 0#64
  · simp [h1, State.emit, State.setRun, State.setFre]
  · cases h2 : s.fre <;> simp [h1, h2, State.emit, State.setRun, State.setFre, State.cacheWrite]

/-- With nothing pending a flush does nothing. -/
theorem flushed_zero {s : State} (h : s.run = 0) : flushed s = s := by
  rw [flushed_frame]
  have hc : (flushed s).cache = s.cache := cache_ext fun k => by rw [flushed_cacheRead]; simp [h]
  rw [hc]
  cases s
  simp only at h
  subst h
  simp [flushBytes, runChunks]

section
variable (s : State)

@[simp] theorem flushed_prev : (flushed s).prev = s.prev := by rw [flushed_frame]
@[simp] theorem flushed_run : (flushed s).run = 0 := by rw [flushed_frame]
@[simp] theorem flushed_fre : (flushed s).fre = (s.fre || decide (s.run ≠ 0)) := by rw [flushed_frame]
@[simp] theorem flushed_zc : (flushed s).zc = s.zc := by rw [flushed_frame]
@[simp] theorem flushed_pos : (flushed s).pos = s.pos := by rw [flushed_frame]
@[simp] theorem flushed_idx : (flushed s).idx = s.idx := by rw [flushed_frame]
@[simp] theorem flushed_hdr : (flushed s).hdr = s.hdr := by rw [flushed_frame]
@[simp] theorem flushed_outpix : (flushed s).outpix = s.outpix := by rw [flushed_frame]
@[simp] theorem flushed_outb : (flushed s).outb = s.outb ++ flushBytes s.run.toNat := by rw [flushed_frame]
@[simp] theorem flushed_phase : (flushed s).phase = s.phase := by rw [flushed_frame]
@[simp] theorem flushed_status : (flushed s).status = s.status := by rw [flushed_frame]
@[simp] theorem flushed_input : (flushed s).input = s.input := by rw [flushed_frame]
@[simp] theorem flushed_wIn : (flushed s).wIn = s.wIn := by rw [flushed_frame]
@[simp] theorem flushed_hIn : (flushed s).hIn = s.hIn := by rw [flushed_frame]
@[simp] theorem flushed_pixIn : (flushed s).pixIn = s.pixIn := by rw [flushed_frame]
@[simp] theorem flushed_host : (flushed s).host = s.host := by rw [flushed_frame]
@[simp] theorem flushed_cfg : (flushed s).cfg = s.cfg := by rw [flushed_frame]

end

/-- The selection is always a well-formed chunk, never a Run (R226). -/
theorem select_chunk (px : Color) (s : State) :
    (select px s).wellFormed = true ∧ select px s ≠ .endMark ∧ ∀ n, select px s ≠ .run n := by
  unfold select selectOpaque
  split
  · simp [Instr.wellFormed]
  · split
    · simp only
      split
      · simp [Instr.wellFormed]
      · split <;> simp [Instr.wellFormed]
    · simp [Instr.wellFormed]

/-- The state after a pixel that differs from PREV has been emitted. -/
def emitted (px : Color) (s : State) : State :=
  (((flushed s).emit (encode (select px (flushed s)))).setPrev px).cacheWrite px

theorem emitPixel_eq (px : Color) (s : State) : emitPixel px s = .ok (emitted px s) := by
  have e : serializeOne (select px (flushed s)) (flushed s) =
      .ok ((flushed s).emit (encode (select px (flushed s)))) := by
    simp [serializeOne, (select_chunk px (flushed s)).1]
  rw [emitPixel, flushRun_eq]
  show Except.map _ (serializeOne (select px (flushed s)) (flushed s)) = _
  rw [e]
  rfl

/-- Everything the pixel step can do (R212, R213). -/
theorem encPixelStep_cases (s : State) :
    (s.pixIn[s.idx]? = none ∧ encPixelStep s = .fault .pixelIndexOutOfRange) ∨
    (s.pixIn[s.idx]? = some s.prev ∧ encPixelStep s = .next (endPixel (s.nextPixel.setRun (s.run + 1)))) ∨
    (∃ px, s.pixIn[s.idx]? = some px ∧ px ≠ s.prev ∧
      encPixelStep s = .next (endPixel (emitted px s.nextPixel))) := by
  unfold encPixelStep
  split
  · next h => exact .inl ⟨h, rfl⟩
  · next px h =>
    by_cases e : px = s.prev
    · exact .inr (.inl ⟨by rw [h, e], by simp [e]⟩)
    · refine .inr (.inr ⟨px, h, e, ?_⟩)
      simp only [if_neg e, emitPixel_eq]
      rfl

/-- The finish step flushes, writes the end marker and is done (R222). -/
theorem encFinishStep_eq (s : State) :
    encFinishStep s = .next (((flushed s).emit endMarker).setPhase .done) := by
  rw [encFinishStep, flushRun_eq]
  rfl

/-- The phase a pixel step leads to (R212). -/
theorem endPixel_eq (s : State) :
    endPixel s = { s with phase := if s.idx = pixelCount s.wIn s.hIn then .encFinish else s.phase } := by
  unfold endPixel
  split <;> rfl

end Sys2Proof.Machine
end

