-- ==== Sys2Proof/Laws/HeaderLaws.lean ====
section
/-! SUPPORT. What the header parse can do (40_header_codec.md R100): all five fields read, or an error that leaves
everything but HDR alone. -/

namespace Sys2Proof.Machine

/-- The header that stands at offset 0 of IN. -/
def headerRead (s : State) : Header := ⟨s.magicRead, s.wordAt 4, s.wordAt 8, s.byteAt 12, s.byteAt 13⟩

section
variable (s : State) (h : Header) (a : Nat)

@[simp] theorem byteAt_setHdr : (s.setHdr h).byteAt a = s.byteAt a := rfl
@[simp] theorem wordAt_setHdr : (s.setHdr h).wordAt a = s.wordAt a := rfl
@[simp] theorem magicRead_setHdr : (s.setHdr h).magicRead = s.magicRead := rfl
@[simp] theorem inputLen_setHdr : (s.setHdr h).inputLen = s.inputLen := rfl
@[simp] theorem setHdr_setHdr (h' : Header) : (s.setHdr h).setHdr h' = s.setHdr h' := rfl

end

@[simp] theorem Attempt.bind_ok (s : State) (f : State → Attempt) : (Attempt.ok s).bind f = f s := rfl
@[simp] theorem Attempt.bind_raised (e : Error) (s : State) (f : State → Attempt) :
    (Attempt.raised e s).bind f = .raised e s := rfl

/-- The magic of the stream is "qoif" exactly when its first four bytes are there and spell it (R72). -/
theorem take_four_eq_magic (s : State) :
    s.input.take 4 = [0x71, 0x6F, 0x69, 0x66] ↔ 4 ≤ s.inputLen ∧ s.magicRead = Magic.qoif := by
  unfold State.inputLen State.magicRead State.byteAt Magic.qoif
  rcases s.input with _ | ⟨a, _ | ⟨b, _ | ⟨c, _ | ⟨d, l⟩⟩⟩⟩ <;> simp

/-- A 32-bit integer is read back from its bytes (20_memory.md R54). -/
theorem be32_of_bytes (w : BitVec 32) :
    be32 (w.extractLsb' 24 8) (w.extractLsb' 16 8) (w.extractLsb' 8 8) (w.extractLsb' 0 8) = w := by
  unfold be32
  apply BitVec.eq_of_getLsbD_eq
  intro i hi
  simp only [BitVec.getLsbD_append, BitVec.getLsbD_extractLsb']
  split
  · next h => simp [h]
  · split
    · next h => simp only [h, decide_true, Bool.true_and]; congr 1; omega
    · split
      · next h => simp only [h, decide_true, Bool.true_and]; congr 1; omega
      · simp only [show i - 8 - 8 - 8 < 8 by omega, decide_true, Bool.true_and]; congr 1; omega

/-- A whole header with the right magic is read whole. -/
theorem parseHeader_ok {s : State} (hl : 14 ≤ s.inputLen) (hm : s.magicRead = Magic.qoif) :
    parseHeader s = .ok { s with hdr := headerRead s, pos := 14 } := by
  have l4 : ¬ s.inputLen < 4 := by omega
  have l8 : ¬ s.inputLen < 8 := by omega
  have l12 : ¬ s.inputLen < 12 := by omega
  have l13 : ¬ s.inputLen < 13 := by omega
  have l14 : ¬ s.inputLen < 14 := by omega
  simp [parseHeader, parseMagic, parseWidth, parseHeight, parseChannels, parseColorspace, hm, l4, l8, l12, l13, l14]
  rfl

/-- The errors of the parse, in field order (R101), each with the header registers it left (R247). -/
theorem parseHeader_error (s : State) :
    (s.inputLen < 4 → parseHeader s = .raised (.truncatedInput s.pos (.field .magic)) s) ∧
    (4 ≤ s.inputLen → s.magicRead ≠ Magic.qoif → parseHeader s = .raised (.badMagic s.magicRead) s) ∧
    (4 ≤ s.inputLen → s.inputLen < 8 → s.magicRead = Magic.qoif →
      parseHeader s = .raised (.truncatedInput s.pos (.field .width)) s) ∧
    (8 ≤ s.inputLen → s.inputLen < 12 → s.magicRead = Magic.qoif →
      parseHeader s = .raised (.truncatedInput s.pos (.field .height))
        (s.setHdr { s.hdr with width := s.wordAt 4 })) ∧
    (s.inputLen = 12 → s.magicRead = Magic.qoif →
      parseHeader s = .raised (.truncatedInput s.pos (.field .channels))
        (s.setHdr { s.hdr with width := s.wordAt 4, height := s.wordAt 8 })) ∧
    (s.inputLen = 13 → s.magicRead = Magic.qoif →
      parseHeader s = .raised (.truncatedInput s.pos (.field .colorspace))
        (s.setHdr { s.hdr with width := s.wordAt 4, height := s.wordAt 8, channels := s.byteAt 12 })) := by
  refine ⟨?_, ?_, ?_, ?_, ?_, ?_⟩
  · intro h
    simp [parseHeader, parseMagic, h, fieldCut]
  · intro h hm
    simp [parseHeader, parseMagic, hm, show ¬ s.inputLen < 4 by omega]
  · intro h h' hm
    simp [parseHeader, parseMagic, parseWidth, hm, show ¬ s.inputLen < 4 by omega, h', fieldCut]
  · intro h h' hm
    simp [parseHeader, parseMagic, parseWidth, parseHeight, hm, show ¬ s.inputLen < 4 by omega,
      show ¬ s.inputLen < 8 by omega, h', fieldCut]
  · intro h hm
    simp [parseHeader, parseMagic, parseWidth, parseHeight, parseChannels, hm, h, fieldCut]
  · intro h hm
    simp [parseHeader, parseMagic, parseWidth, parseHeight, parseChannels, parseColorspace, hm, h, fieldCut]

/-- Everything the header parse can do. -/
theorem parseHeader_cases (s : State) :
    (14 ≤ s.inputLen ∧ s.magicRead = Magic.qoif ∧ parseHeader s = .ok { s with hdr := headerRead s, pos := 14 }) ∨
    ((s.inputLen < 14 ∨ s.magicRead ≠ Magic.qoif) ∧ ∃ e h, parseHeader s = .raised e (s.setHdr h) ∧
      ((∃ f, e = .truncatedInput s.pos (.field f)) ∨ e = .badMagic s.magicRead)) := by
  obtain ⟨e1, e2, e3, e4, e5, e6⟩ := parseHeader_error s
  by_cases h4 : s.inputLen < 4
  · exact .inr ⟨.inl (by omega), _, s.hdr, e1 h4, .inl ⟨_, rfl⟩⟩
  by_cases hm : s.magicRead = Magic.qoif
  · by_cases h8 : s.inputLen < 8
    · exact .inr ⟨.inl (by omega), _, s.hdr, e3 (by omega) h8 hm, .inl ⟨_, rfl⟩⟩
    by_cases h12 : s.inputLen < 12
    · exact .inr ⟨.inl (by omega), _, _, e4 (by omega) h12 hm, .inl ⟨_, rfl⟩⟩
    by_cases h13 : s.inputLen = 12
    · exact .inr ⟨.inl (by omega), _, _, e5 h13 hm, .inl ⟨_, rfl⟩⟩
    by_cases h14 : s.inputLen = 13
    · exact .inr ⟨.inl (by omega), _, _, e6 h14 hm, .inl ⟨_, rfl⟩⟩
    exact .inl ⟨by omega, hm, parseHeader_ok (by omega) hm⟩
  · exact .inr ⟨.inr hm, _, s.hdr, e2 (by omega) hm, .inr rfl⟩

end Sys2Proof.Machine
end

