-- ==== Sys2Proof/Laws/Parse.lean ====
section
/-! SUPPORT. What PARSE_ONE can answer (41_chunk_codec.md R120 to R127). -/

namespace Sys2Proof

/-- A byte's two-bit prefix is one of four. -/
theorem tagPrefix_cases (t : Byte) :
    tagPrefix t = 0b00#2 ∨ tagPrefix t = 0b01#2 ∨ tagPrefix t = 0b10#2 ∨ tagPrefix t = 0b11#2 := by
  generalize tagPrefix t = p
  revert p
  decide

/-- A tag with prefix 11 that is neither `FE` nor `FF` has a field of at most 61 (30_encoding.md R80). -/
theorem tagField_run_le (t : Byte) (h1 : t ≠ 0xFE#8) (h2 : t ≠ 0xFF#8) (h : tagPrefix t = 0b11#2) :
    (tagField t).toNat ≤ 61 := by
  revert t
  decide

/-- Everything PARSE_ONE can answer with a chunk: the tag and payload bytes it stood on, case by case. -/
theorem parseOne_ok_cases {bs : List Byte} {c : Instr} {n : Nat} (h : parseOne bs = .ok (c, n)) :
    (∃ r g b rest, bs = 0xFE :: r :: g :: b :: rest ∧ c = .rgb r g b ∧ n = 4) ∨
    (∃ r g b a rest, bs = 0xFF :: r :: g :: b :: a :: rest ∧ c = .rgba r g b a ∧ n = 5) ∨
    (∃ t rest, bs = t :: rest ∧ tagPrefix t = 0b00#2 ∧ c = .index (tagField t) ∧ n = 1) ∨
    (∃ t rest, bs = t :: rest ∧ tagPrefix t = 0b01#2 ∧
      c = .diff (t.extractLsb' 4 2) (t.extractLsb' 2 2) (t.extractLsb' 0 2) ∧ n = 1) ∨
    (∃ t b1 rest, bs = t :: b1 :: rest ∧ tagPrefix t = 0b10#2 ∧
      c = .luma (tagField t) (b1.extractLsb' 4 4) (b1.extractLsb' 0 4) ∧ n = 2) ∨
    (∃ t rest, bs = t :: rest ∧ t ≠ 0xFE ∧ t ≠ 0xFF ∧ tagPrefix t = 0b11#2 ∧ c = .run (tagField t) ∧ n = 1) := by
  cases bs with
  | nil => simp [parseOne] at h
  | cons t rest =>
    simp only [parseOne] at h
    split at h
    · next e =>
      subst e
      unfold parseRgb at h
      split at h
      · cases h; exact .inl ⟨_, _, _, _, rfl, rfl, rfl⟩
      · cases h
    · next e1 =>
      split at h
      · next e =>
        subst e
        unfold parseRgba at h
        split at h
        · cases h; exact .inr (.inl ⟨_, _, _, _, _, rfl, rfl, rfl⟩)
        · cases h
      · next e2 =>
        split at h
        · next e => cases h; exact .inr (.inr (.inl ⟨_, _, rfl, e, rfl, rfl⟩))
        · split at h
          · next e => cases h; exact .inr (.inr (.inr (.inl ⟨_, _, rfl, e, rfl, rfl⟩)))
          · split at h
            · next e =>
              unfold parseLuma at h
              split at h
              · cases h; exact .inr (.inr (.inr (.inr (.inl ⟨_, _, _, rfl, e, rfl, rfl⟩))))
              · cases h
            · split at h
              · next e => cases h; exact .inr (.inr (.inr (.inr (.inr ⟨_, _, rfl, e1, e2, e, rfl, rfl⟩))))
              · cases h

/-- A parsed chunk is well-formed, never `.END`, its reported length is its variant's (R73), and its bytes were there. -/
theorem parseOne_ok {bs : List Byte} {c : Instr} {n : Nat} (h : parseOne bs = .ok (c, n)) :
    c.wellFormed = true ∧ c ≠ .endMark ∧ n = c.lengthBytes ∧ 1 ≤ n ∧ n ≤ bs.length := by
  rcases parseOne_ok_cases h with ⟨r, g, b, rest, rfl, rfl, rfl⟩ | ⟨r, g, b, a, rest, rfl, rfl, rfl⟩ |
    ⟨t, rest, rfl, _, rfl, rfl⟩ | ⟨t, rest, rfl, _, rfl, rfl⟩ | ⟨t, b1, rest, rfl, _, rfl, rfl⟩ |
    ⟨t, rest, rfl, h1, h2, h3, rfl, rfl⟩
  all_goals refine ⟨?_, by simp, rfl, by simp, by simp⟩
  all_goals first | rfl | exact decide_eq_true (tagField_run_le _ h1 h2 h3)

end Sys2Proof
end

