-- ==== Sys2Proof/Laws/PerInstr.lean ====
section
/-! SUPPORT. The families of statements about the instructions as syntax, one lemma per constructor of Instr. -/

namespace Sys2Proof.Laws

/-- An instruction's bytes are as many as its variant's fixed length (30_encoding.md R73, R88). -/
def EncodeLength.Statement (i : Instr) : Prop := (encode i).length = i.lengthBytes

theorem EncodeLength.rgb (r g b : Byte) : EncodeLength.Statement (.rgb r g b) := rfl
theorem EncodeLength.rgba (r g b a : Byte) : EncodeLength.Statement (.rgba r g b a) := rfl
theorem EncodeLength.index (k : BitVec 6) : EncodeLength.Statement (.index k) := rfl
theorem EncodeLength.diff (dr dg db : BitVec 2) : EncodeLength.Statement (.diff dr dg db) := rfl
theorem EncodeLength.luma (dg : BitVec 6) (drg dbg : BitVec 4) : EncodeLength.Statement (.luma dg drg dbg) := rfl
theorem EncodeLength.run (n : BitVec 6) : EncodeLength.Statement (.run n) := rfl
theorem EncodeLength.endMark : EncodeLength.Statement .endMark := rfl

end Sys2Proof.Laws
end

