-- ==== Sys2Proof/Laws/Steps.lean ====
section
/-! SUPPORT. Everything one step can do, said once: `step_next` inverts a step that goes on, and every invariant of
the machine is a case analysis over it. -/

namespace Sys2Proof.Machine

section
variable {s : State}

theorem step_waiting (h : Waiting s) : step s = waitStep s := by
  rcases h with h | h | h <;> simp only [step, h]

theorem step_decHeader (h : s.phase = .decHeader) : step s = decHeaderStep s := by simp only [step, h]
theorem step_decChunks (h : s.phase = .decChunks) : step s = decChunkStep s := by simp only [step, h]
theorem step_decFinish (h : s.phase = .decFinish) : step s = decFinishStep s := by simp only [step, h]
theorem step_encHeader (h : s.phase = .encHeader) : step s = encHeaderStep s := by simp only [step, h]
theorem step_encPixels (h : s.phase = .encPixels) : step s = encPixelStep s := by simp only [step, h]
theorem step_encFinish (h : s.phase = .encFinish) : step s = encFinishStep s := by simp only [step, h]

end

/-! ### Runs of several steps -/

@[simp] theorem steps_zero (s : State) : steps 0 s = .next s := rfl

theorem steps_succ {s t : State} (h : step s = .next t) (n : Nat) : steps (n + 1) s = steps n t := by
  rw [steps, h]

/-- A run of `m + n` steps that goes on for its first `m`. -/
theorem steps_add {m : Nat} : ∀ {s t : State}, steps m s = .next t → ∀ n, steps (m + n) s = steps n t := by
  induction m with
  | zero => intro s t h n; cases h; rw [Nat.zero_add]
  | succ m ih =>
    intro s t h n
    rw [steps] at h
    split at h
    · next u hu =>
      rw [show m + 1 + n = (m + n) + 1 by omega, steps_succ hu]
      exact ih h n
    · cases h
    · cases h

/-- Without a command a waiting core stays as it is. -/
theorem steps_wait {s : State} (hw : Waiting s) (hh : s.host = []) (n : Nat) : steps n s = .next s := by
  induction n with
  | zero => rfl
  | succ n ih =>
    have h : step s = .next s := by rw [step_waiting hw, waitStep, hh]
    rw [steps_succ h, ih]

/-- One step of a run, of any machine behind the host's interface. -/
theorem core_run_succ (M : Host.Core) (n : Nat) (s : M.State) :
    (∀ t, M.step s = .next t → M.run (n + 1) s = M.run n t) ∧
    (∀ f, M.step s = .fault f → M.run (n + 1) s = .fault f) ∧
    (∀ r, M.step s = .refused r → M.run (n + 1) s = .refused r) := by
  refine ⟨fun t h => ?_, fun f h => ?_, fun r h => ?_⟩ <;> rw [Host.Core.run, h]

/-- `steps` is the host interface's run of the machine. -/
theorem steps_eq_core_run (n : Nat) (s : State) : steps n s = Sys2Proof.core.run n s := by
  induction n generalizing s with
  | zero => rfl
  | succ n ih =>
    obtain ⟨h1, h2, h3⟩ := core_run_succ Sys2Proof.core n s
    rw [steps]
    cases h : step s with
    | next t => exact (ih t).trans (h1 t h).symm
    | fault f => exact (h2 f h).symm
    | refused r => exact (h3 r h).symm

/-- The state an accepted ENCODE starts from (R210). -/
def encodeStarted (w h : BitVec 32) (px : List Color) (s : State) : State :=
  { s.initRegs with hdr := encodeHeader w h, wIn := w, hIn := h, pixIn := px, phase := .encHeader }

theorem startEncode_ok {w h : BitVec 32} {px : List Color} (hl : px.length = pixelCount w h) (s : State) :
    startEncode w h px s = .next (encodeStarted w h px s) := by rw [startEncode, if_pos hl, encodeStarted]

theorem startEncode_refused {w h : BitVec 32} {px : List Color} (hl : px.length ≠ pixelCount w h) (s : State) :
    startEncode w h px s = .refused (.encodeSizeMismatch px.length (pixelCount w h)) := by rw [startEncode, if_neg hl]

@[simp] theorem cacheRead_startDecode (input : List Byte) (s : State) (k : BitVec 6) :
    (startDecode input s).cacheRead k = Color.trans := cacheRead_initRegs s k

@[simp] theorem cacheRead_encodeStarted (w h : BitVec 32) (px : List Color) (s : State) (k : BitVec 6) :
    (encodeStarted w h px s).cacheRead k = Color.trans := cacheRead_initRegs s k

/-- The chunk at POS is `c`. -/
def FetchOk (s : State) (c : Instr) : Prop := parseOne (s.input.drop s.pos) = .ok (c, c.lengthBytes)

theorem fetchOk_of_parse {s : State} {c : Instr} {n : Nat} (h : parseOne (s.input.drop s.pos) = .ok (c, n)) :
    FetchOk s c := by
  have e := (parseOne_ok h).2.2.1
  subst e
  exact h

/-- A fetched chunk is well-formed, is no `.END`, and its bytes lie inside IN. -/
theorem FetchOk.spec {s : State} {c : Instr} (h : FetchOk s c) :
    c.wellFormed = true ∧ c ≠ .endMark ∧ 1 ≤ c.lengthBytes ∧ s.pos + c.lengthBytes ≤ s.inputLen := by
  obtain ⟨h1, h2, -, h4, h5⟩ := parseOne_ok h
  refine ⟨h1, h2, h4, ?_⟩
  rw [List.length_drop] at h5
  simp only [State.inputLen]
  omega

/-- The ways a step goes on from `s`, each with the state it reaches. -/
inductive StepCase (s : State) : State → Prop where
  /-- Not busy and no command: nothing happens (R256). -/
  | wait (hw : Waiting s) (hh : s.host = []) : StepCase s s
  /-- A DECODE command starts (R180). -/
  | startDecode {input : List Byte} {rest : List Command} (hw : Waiting s) (hh : s.host = .decode input :: rest) :
    StepCase s (startDecode input { s with host := rest })
  /-- A well-formed ENCODE command starts (R210). -/
  | startEncode {w h : BitVec 32} {px : List Color} {rest : List Command} (hw : Waiting s)
    (hh : s.host = .encode w h px :: rest) (hl : px.length = pixelCount w h) :
    StepCase s (encodeStarted w h px { s with host := rest })
  /-- The header was parsed (R181). -/
  | header (hp : s.phase = .decHeader) (hl : 14 ≤ s.inputLen) (hm : s.magicRead = Magic.qoif) :
    StepCase s { s with hdr := headerRead s, pos := 14, phase := .decChunks }
  /-- The header parse failed (R101). -/
  | headerError {e : Error} {h : Header} (hp : s.phase = .decHeader)
    (hl : s.inputLen < 14 ∨ s.magicRead ≠ Magic.qoif)
    (he : (∃ f, e = .truncatedInput s.pos (.field f)) ∨ e = .badMagic s.magicRead) :
    StepCase s ((s.setHdr h).enterError e)
  /-- No chunk could be parsed (R120). -/
  | parseError {pe : ParseError} (hp : s.phase = .decChunks) (he : parseOne (s.input.drop s.pos) = .error pe) :
    StepCase s (s.enterError (parseErrorAt s.pos pe))
  /-- The chunk ended the loop (R184). -/
  | endLoop (hp : s.phase = .decChunks) (hf : FetchOk s (.index 1)) (hz : 7 ≤ s.zc) :
    StepCase s { s with pos := s.pos + 1, phase := .decFinish }
  /-- The chunk was expanded, and its pixels fit in the store (R182, R185). -/
  | chunk {c : Instr} (hp : s.phase = .decChunks) (hf : FetchOk s c) (hz : endsLoop s.zc c = false)
    (hr : Room s (applied c s).length) :
    StepCase s (afterChunk c (applied c s) ((applied c s).getLastD s.prev) s)
  /-- The pixel store was full on the way (R185). -/
  | storeFull {c : Instr} {n ix : Nat} (hp : s.phase = .decChunks) (hf : FetchOk s c)
    (hz : endsLoop s.zc c = false) (hr : ¬ Room s (applied c s).length) (hn : Room s 0 → Room s ((applied c s).take n).length) :
    StepCase s ((midChunk c (applied c s) n s).enterError (.bufferBounds ix))
  /-- The count check failed (R187). -/
  | countError {e : Error} (hp : s.phase = .decFinish)
    (he : (∃ m n, e = .tooMany m n) ∨ (∃ m n, e = .tooFew m n))
    (hn : (trimPhantoms s).outpix.length ≠ pixelCount s.hdr.width s.hdr.height) :
    StepCase s ((trimPhantoms s).enterError e)
  /-- The decode is done (R188). -/
  | decodeDone (hp : s.phase = .decFinish)
    (hn : (trimPhantoms s).outpix.length = pixelCount s.hdr.width s.hdr.height) :
    StepCase s ((trimPhantoms s).setPhase .done)
  /-- The header was emitted (R211). -/
  | encHeader (hp : s.phase = .encHeader) :
    StepCase s ((serializeHeader s).setPhase (if 0 < pixelCount s.wIn s.hIn then .encPixels else .encFinish))
  /-- A pixel extended the run (R213). -/
  | runPixel (hp : s.phase = .encPixels) (hx : s.pixIn[s.idx]? = some s.prev) :
    StepCase s (endPixel (s.nextPixel.setRun (s.run + 1)))
  /-- A pixel was emitted (R214 to R221). -/
  | emitPixel {px : Color} (hp : s.phase = .encPixels) (hx : s.pixIn[s.idx]? = some px) (hne : px ≠ s.prev) :
    StepCase s (endPixel (emitted px s.nextPixel))
  /-- The encode is done (R222). -/
  | encodeDone (hp : s.phase = .encFinish) : StepCase s (((flushed s).emit endMarker).setPhase .done)

theorem decHeaderStep_cases {s t : State} (hp : s.phase = .decHeader) (h : decHeaderStep s = .next t) :
    StepCase s t := by
  rcases parseHeader_cases s with ⟨hl, hm, e⟩ | ⟨hl, er, hd, e, he⟩
  · rw [decHeaderStep, e] at h
    cases h
    exact .header hp hl hm
  · rw [decHeaderStep, e] at h
    cases h
    exact .headerError hp hl he

/-- Appends that did not all fit had no room for all of them, and stopped at the end of the store. -/
theorem expandChunk_storeFull {c : Instr} {px : List Color} {s : State} {e : Error} {t : State}
    (h : expandChunk c px (writesCache c) s = .raised e t) :
    ¬ Room s px.length ∧ ∃ n ix, (Room s 0 → Room s (px.take n).length) ∧ e = .bufferBounds ix ∧ t = midChunk c px n s := by
  have hnr : ¬ Room s px.length := fun hr => by rw [expandChunk_ok hr rfl] at h; cases h
  refine ⟨hnr, ?_⟩
  rcases expandChunk_cases c px s with e' | ⟨n, ix, e'⟩
  · rw [e'] at h; cases h
  by_cases h0 : Room s 0
  · simp only [Room, not_forall] at hnr
    obtain ⟨cap, hc, hlt⟩ := hnr
    have hle := h0 cap hc
    have e2 := expandChunk_full (c := c) (px := px) (w := writesCache c) hc (by omega) (by omega)
    rw [e2] at h
    cases h
    refine ⟨cap - s.outpix.length, cap, fun _ cap' hc' => ?_, rfl, rfl⟩
    rw [hc] at hc'
    cases hc'
    rw [List.length_take]
    omega
  · rw [e'] at h
    cases h
    exact ⟨n, ix, fun h => absurd h h0, rfl, rfl⟩

/-- A chunk that was expanded had room for its pixels. -/
theorem expandChunk_room {c : Instr} {s t : State} (h : expandChunk c (applied c s) (writesCache c) s = .ok t) :
    Room s (applied c s).length := by
  unfold expandChunk at h
  cases he : appendAll (applied c s) ((s.advance c.lengthBytes).setZc (zcAfter s.zc c)) with
  | ok u =>
    exact room_of_appendAll_ok (s := (s.advance c.lengthBytes).setZc (zcAfter s.zc c)) (applied_ne_nil c s) he
  | raised e u => rw [he] at h; cases h

theorem decChunkStep_cases {s t : State} (hp : s.phase = .decChunks) (h : decChunkStep s = .next t) :
    StepCase s t := by
  unfold decChunkStep fetchChunk at h
  cases hq : parseOne (s.input.drop s.pos) with
  | error pe =>
    rw [hq] at h
    cases h
    exact .parseError hp hq
  | ok r =>
    obtain ⟨c, n⟩ := r
    rw [hq] at h
    have hf := fetchOk_of_parse hq
    obtain ⟨hw, hm, -, -⟩ := hf.spec
    replace h : exec c s = .next t := h
    cases hz : endsLoop s.zc c with
    | true =>
      rw [exec_endsLoop hz] at h
      cases h
      simp only [endsLoop, Bool.and_eq_true, decide_eq_true_eq] at hz
      obtain ⟨h7, rfl⟩ := hz
      exact .endLoop hp hf h7
    | false =>
      rw [exec_eq_expandChunk hw hm hz] at h
      rcases he : expandChunk c (applied c s) (writesCache c) s with t' | ⟨e, t'⟩
      · rw [he] at h
        cases h
        have he' := he
        rcases expandChunk_cases c (applied c s) s with e' | ⟨n, ix, e'⟩
        · rw [e'] at he; cases he; exact .chunk hp hf hz (expandChunk_room he')
        · rw [e'] at he; cases he
      · rw [he] at h
        cases h
        obtain ⟨hr, n, ix, hn, rfl, rfl⟩ := expandChunk_storeFull he
        exact .storeFull hp hf hz hr hn

theorem decFinishStep_cases {s t : State} (hp : s.phase = .decFinish) (h : decFinishStep s = .next t) :
    StepCase s t := by
  have hd : (trimPhantoms s).hdr = s.hdr := rfl
  simp only [decFinishStep, checkCount, hd] at h
  split at h
  · next hlt => cases h; exact .countError hp (.inl ⟨_, _, rfl⟩) (by omega)
  · split at h
    · next hlt => cases h; exact .countError hp (.inr ⟨_, _, rfl⟩) (by omega)
    · cases h; exact .decodeDone hp (by omega)

/-- Everything a step that goes on can have done. -/
theorem step_next {s t : State} (h : step s = .next t) : StepCase s t := by
  have waits : Waiting s → StepCase s t := fun hw => by
    rw [step_waiting hw, waitStep] at h
    split at h
    · next hh => cases h; exact .wait hw hh
    · next c rest hh =>
      cases c with
      | decode input => cases h; exact .startDecode hw hh
      | encode w ht px =>
        simp only [startCommand, Machine.startEncode] at h
        split at h
        · next hl => cases h; exact .startEncode hw hh hl
        · cases h
  cases hp : s.phase with
  | idle => exact waits (.inl hp)
  | done => exact waits (.inr (.inl hp))
  | failed => exact waits (.inr (.inr hp))
  | decHeader => exact decHeaderStep_cases hp (step_decHeader hp ▸ h)
  | decChunks => exact decChunkStep_cases hp (step_decChunks hp ▸ h)
  | decFinish => exact decFinishStep_cases hp (step_decFinish hp ▸ h)
  | encHeader =>
    rw [step_encHeader hp, encHeaderStep] at h
    cases h
    exact .encHeader hp
  | encPixels =>
    rw [step_encPixels hp] at h
    rcases encPixelStep_cases s with ⟨-, e⟩ | ⟨hx, e⟩ | ⟨px, hx, hne, e⟩
    · rw [e] at h; cases h
    · rw [e] at h; cases h; exact .runPixel hp hx
    · rw [e] at h; cases h; exact .emitPixel hp hx hne
  | encFinish =>
    rw [step_encFinish hp, encFinishStep_eq] at h
    cases h
    exact .encodeDone hp

end Sys2Proof.Machine
end

