-- ==== Sys2Proof/Tests/Slice0.lean ====
section
/-! SUPPORT. Small tests of the model, each expected value taken from spec/95_test_vectors.md or from the encodings of
spec/30_encoding.md, and for every statement with hypotheses a witness: concrete states and operands that meet them
all. -/

namespace Sys2Proof.Tests
open Sys2Proof.Machine

/-! ### Helpers -/

/-- One field of the next state of a step. -/
def field {α : Type} (o : Host.Outcome State Fault Refusal) (f : State → α) : Option α :=
  match o with
  | .next t => some (f t)
  | .fault _ => none
  | .refused _ => none

/-- The header of a `w` by `h` image, as H(w,h) of 95_test_vectors.md. -/
def headerOf (w h : BitVec 32) : List Byte := [0x71, 0x6F, 0x69, 0x66] ++ be32Bytes w ++ be32Bytes h ++ [4, 0]

/-- The core just reset, with commands to take. -/
def issued (cs : List Command) : State := { State.reset with host := cs }

/-- A decoder at its first chunk, after PREV was set, with `rest` after the header. -/
def chunkAt (prev : Color) (rest : List Byte) : State :=
  { State.reset.initRegs with prev := prev, phase := .decChunks, pos := 14, input := headerOf 1 1 ++ rest }

/-- A decoder about to parse `input`. -/
def headerAt (input : List Byte) : State := startDecode input State.reset

/-- A decoder whose store holds at most `n` pixels. -/
def bounded (n : Nat) (s : State) : State := { s with cfg := ⟨some n⟩ }

/-- A decoder at the end of its loop, with `n` pixels stored for an image of 1 by 1. -/
def finishAt (n : Nat) : State :=
  { State.reset.initRegs with
    prev := Color.trans, zc := 7, pos := 22, outpix := List.replicate n Color.trans, phase := .decFinish,
    hdr := encodeHeader 1 1, input := headerOf 1 1 ++ endMarker }

/-- An encoder about to take its first pixel of an image of `w` by 1. -/
def pixelsAt (prev : Color) (w : BitVec 32) (px : List Color) : State :=
  { State.reset.initRegs with
    prev := prev, phase := .encPixels, hdr := encodeHeader w 1, wIn := w, hIn := 1, pixIn := px }

/-- An encoder whose pixel before was `c`, with `c` in its slot (95_test_vectors.md L2.6). -/
def selecting (c : Color) : State := (pixelsAt c 2 [c, c]).cacheWrite c

/-! ### Well-formedness: the one check, and what it refuses -/

theorem test_wellFormed_run61 : (Instr.run 61).wellFormed = true := by decide
theorem test_illFormed_run62 : (Instr.run 62).wellFormed = false := by decide
theorem test_illFormed_run63 : (Instr.run 63).wellFormed = false := by decide
theorem test_serializer_refuses_run62 :
    serializeOne (.run 62) State.reset = .error (.illFormedChunk (.run 62)) := by decide

/-! ### Decoding, from the bit patterns of R75 to R80 and R86 -/

theorem test_decode_rgb : decode [0b11111110, 0b00001010, 0b00010100, 0b00011110] = .ok (.rgb 10 20 30, 4) := by
  decide
theorem test_decode_rgba :
    decode [0b11111111, 0b00001010, 0b00010100, 0b00011110, 0b00101000] = .ok (.rgba 10 20 30 40, 5) := by decide
theorem test_decode_index : decode [0b00110101] = .ok (.index 0b110101, 1) := by decide
theorem test_decode_diff : decode [0b01011011] = .ok (.diff 0b01 0b10 0b11, 1) := by decide
theorem test_decode_luma : decode [0b10010000, 0b01011010] = .ok (.luma 0b010000 0b0101 0b1010, 2) := by decide
theorem test_decode_run : decode [0b11111101] = .ok (.run 0b111101, 1) := by decide
theorem test_decode_end : decode [0, 0, 0, 0, 0, 0, 0, 1] = .ok (.endMark, 8) := by decide
theorem test_decode_payload_is_no_tag : decode [0xFE, 0xFF, 0xFE, 0x00] = .ok (.rgb 255 254 0, 4) := by decide
theorem test_decode_truncated_luma : decode [0x80] = .error (.short 2) := by decide

/-! ### One step of each instruction (95_test_vectors.md L2.5, L2.8, L2.10) -/

theorem test_rgb_keeps_alpha :
    field (step (chunkAt ⟨1, 2, 3, 128⟩ [0xFE, 10, 20, 30])) (fun t => (t.outpix, t.pos, t.cacheRead 20)) =
      some ([⟨10, 20, 30, 128⟩], 18, ⟨10, 20, 30, 128⟩) := by decide
theorem test_rgb_full_store :
    field (step (bounded 0 (chunkAt ⟨1, 2, 3, 128⟩ [0xFE, 10, 20, 30]))) (fun t => (t.status, t.phase, t.prev)) =
      some (.error (.bufferBounds 0), .failed, ⟨1, 2, 3, 128⟩) := by decide
theorem test_rgba :
    field (step (chunkAt Color.black [0xFF, 10, 20, 30, 40])) (fun t => (t.outpix, t.pos, t.cacheRead 12)) =
      some ([⟨10, 20, 30, 40⟩], 19, ⟨10, 20, 30, 40⟩) := by decide
theorem test_index_reads_its_slot :
    field (step ((chunkAt Color.black [0x09]).cacheWrite ⟨10, 20, 30, 255⟩)) (fun t => (t.outpix, t.prev, t.zc)) =
      some ([⟨10, 20, 30, 255⟩], ⟨10, 20, 30, 255⟩, 0) := by decide
theorem test_index_one_after_seven_zeros_ends :
    field (step ((chunkAt Color.black [0x01]).setZc 7)) (fun t => (t.outpix, t.phase, t.pos)) =
      some ([], .decFinish, 15) := by decide
theorem test_diff_wraps_below :
    field (step (chunkAt Color.black [0x40])) (fun t => (t.outpix, t.cacheRead 23)) =
      some ([⟨254, 254, 254, 255⟩], ⟨254, 254, 254, 255⟩) := by decide
theorem test_diff_wraps_above :
    field (step (chunkAt ⟨255, 0, 128, 7⟩ [0x71])) (fun t => (t.prev, t.cacheRead 60)) =
      some (⟨0, 254, 127, 7⟩, ⟨0, 254, 127, 7⟩) := by decide
theorem test_luma_red_wraps :
    field (step (chunkAt ⟨10, 20, 30, 40⟩ [0x90, 0x5A])) (fun t => (t.prev, t.pos)) =
      some (⟨247, 4, 16, 40⟩, 16) := by decide
theorem test_luma_extreme_fields :
    field (step (chunkAt ⟨100, 100, 100, 255⟩ [0xBF, 0x00])) (fun t => (t.prev, t.cacheRead 18)) =
      some (⟨123, 131, 123, 255⟩, ⟨123, 131, 123, 255⟩) := by decide
theorem test_run_writes_the_cache :
    field (step (chunkAt ⟨11, 21, 31, 40⟩ [0xC1])) (fun t => (t.outpix, t.cacheRead 27)) =
      some ([⟨11, 21, 31, 40⟩, ⟨11, 21, 31, 40⟩], ⟨11, 21, 31, 40⟩) := by decide
theorem test_run_resets_zc : field (step ((chunkAt Color.black [0xC0]).setZc 7)) (fun t => (t.zc, t.phase)) =
    some (0, .decChunks) := by decide
theorem test_end_marker_runs :
    field (exec .endMark (chunkAt Color.black endMarker)) (fun t => (t.outpix, t.zc, t.pos, t.phase)) =
      some (List.replicate 7 Color.trans, 7, 22, .decFinish) := by decide

/-! ### The header, the finish, and the encoder (L2.2, L2.6, L2.7, L2.9) -/

theorem test_header_big_endian :
    field (step (headerAt [0x71, 0x6F, 0x69, 0x66, 0, 0, 1, 0, 0, 0, 0, 2, 3, 1])) (fun t => (t.hdr, t.pos)) =
      some (⟨⟨0x71, 0x6F, 0x69, 0x66⟩, 256, 2, 3, 1⟩, 14) := by decide
theorem test_header_magic_before_width :
    field (step (headerAt [0x71, 0x6F, 0x69, 0x78, 0])) (fun t => t.status.code) = some 2 := by decide
theorem test_finish_trims_seven : field (step (finishAt 8)) (fun t => (t.outpix, t.phase)) =
    some ([Color.trans], .done) := by decide
theorem test_finish_too_few : field (step (finishAt 7)) (fun t => t.status.code) = some 5 := by decide
theorem test_select_diff : select ⟨99, 100, 101, 255⟩ (selecting ⟨100, 100, 100, 255⟩) = .diff 1 2 3 := by decide
theorem test_select_luma_low : select ⟨102, 110, 110, 255⟩ (selecting ⟨100, 100, 100, 255⟩) = .luma 42 0 8 := by
  decide
theorem test_select_rgb_past_luma :
    select ⟨101, 110, 110, 255⟩ (selecting ⟨100, 100, 100, 255⟩) = .rgb 101 110 110 := by decide
theorem test_select_rgba : select ⟨100, 100, 100, 0⟩ (selecting ⟨100, 100, 100, 255⟩) = .rgba 100 100 100 0 := by
  decide
theorem test_flush_63 : (flushRun ((pixelsAt Color.black 1 []).setRun 63)).map (fun t => (t.outb, t.fre)) =
    .ok ([0xFD, 0xC0], true) := by decide

/-! ### The words of the opcode table, decoded and run as the first instruction -/

theorem test_fetch_rgb : field (step (State.reset.withFetchWord 32 0x1E140AFE)) (fun t => t.outpix) =
    some [⟨10, 20, 30, 0⟩] := by decide
theorem test_fetch_run : field (step (State.reset.withFetchWord 8 0xC2)) (fun t => t.outpix.length) = some 3 := by
  decide
theorem test_fetch_end : field (step (State.reset.withFetchWord 64 0x0100000000000000)) (fun t => (t.zc, t.pos)) =
    some (1, 1) := by decide

/-! ### Witnesses: states and operands that meet the hypotheses of the statements -/

theorem witness_WaitingCoreMovesOnlyByCommands :
    (Waiting (issued []) ∧ (issued []).host = []) ∧
    (Waiting (issued [.decode []]) ∧ (issued [.decode []]).host = .decode [] :: []) :=
  ⟨⟨.inl rfl, rfl⟩, ⟨.inl rfl, rfl⟩⟩

theorem witness_DecodeStartInitialises :
    Waiting (issued [.decode [0x71]]) ∧ (issued [.decode [0x71]]).host = .decode [0x71] :: [] := ⟨.inl rfl, rfl⟩

theorem witness_EncodeStartInitialisesOrIsRefused :
    (Waiting (issued [.encode 1 1 [Color.black]]) ∧ [Color.black].length = (1#32).toNat * (1#32).toNat) ∧
    (Waiting (issued [.encode 1 2 [Color.black]]) ∧ [Color.black].length ≠ (1#32).toNat * (2#32).toNat) :=
  ⟨⟨.inl rfl, rfl⟩, ⟨.inl rfl, by decide⟩⟩

theorem witness_NothingCrossesAnOperationBoundary :
    ∃ s s' t, s ≠ s' ∧ Waiting s ∧ Waiting s' ∧ s.cfg = s'.cfg ∧ s.host = [.decode []] ∧ s'.host = [.decode []] ∧
      step s = .next t :=
  ⟨issued [.decode []], (issued [.decode []]).setZc 5, _, by decide, .inl rfl, .inl rfl, rfl, rfl, rfl, rfl⟩

theorem witness_HeaderStepReadsFieldsInOrder :
    (∀ n, (headerAt ((headerOf 1 1).take n)).phase = .decHeader) ∧
    (headerAt ((headerOf 1 1).take 3)).inputLen < 4 ∧
    (4 ≤ (headerAt [0x71, 0x6F, 0x69, 0x46]).inputLen ∧
      (headerAt [0x71, 0x6F, 0x69, 0x46]).input.take 4 ≠ [0x71, 0x6F, 0x69, 0x66]) ∧
    (∀ n ∈ [4, 7, 8, 11, 12, 13, 14], (headerAt ((headerOf 1 1).take n)).input.take 4 = [0x71, 0x6F, 0x69, 0x66] ∧
      (headerAt ((headerOf 1 1).take n)).inputLen = n) :=
  ⟨fun _ => rfl, by decide, by decide, by decide⟩

theorem witness_EncodeHeaderStepEmitsFourteenBytes :
    (encodeStarted 1 1 [Color.black] State.reset).phase = .encHeader ∧
    (encodeStarted 1 1 [Color.black] State.reset).hdr.magic = ⟨0x71, 0x6F, 0x69, 0x66⟩ ∧
    0 < (encodeStarted 1 1 [Color.black] State.reset).wIn.toNat ∧
    (encodeStarted 0 0 [] State.reset).wIn.toNat = 0 := by decide

theorem witness_HeaderRoundTrip :
    ∃ (h : Header) (e e' s : State) (rest : List Byte), h.magic = ⟨0x71, 0x6F, 0x69, 0x66⟩ ∧ e.phase = .encHeader ∧
      e.hdr = h ∧ e.outb = [] ∧ step e = .next e' ∧ s.phase = .decHeader ∧ s.input = e'.outb ++ rest :=
  ⟨encodeHeader 256 2, encodeStarted 256 2 [] State.reset, _, headerAt (headerOf 256 2 ++ [0]), [0],
    rfl, rfl, rfl, rfl, rfl, rfl, rfl⟩

theorem witness_DecodingIgnoresChannelsAndColorspace :
    Waiting State.reset ∧ ((headerOf 1 1).take 12).length = 12 := ⟨.inl rfl, rfl⟩

theorem witness_HeaderIsImmutableDuringAnOperation :
    ∃ s t, Busy s ∧ s.phase ≠ .decHeader ∧ step s = .next t :=
  ⟨chunkAt Color.black [0xC0], _, by simp [Busy, Waiting, chunkAt], by decide, rfl⟩

/-- The tags at both ends of each variant's range. -/
theorem witness_EveryTagDecodesToItsVariant :
    ((parseOne [0x00] = .ok (.index 0, 1) ∧ parseOne [0x3F] = .ok (.index 63, 1)) ∧
      parseOne [0x40] = .ok (.diff 0 0 0, 1) ∧ parseOne [0x7F] = .ok (.diff 3 3 3, 1)) ∧
    (parseOne [0x80, 0x88] = .ok (.luma 0 8 8, 2) ∧ parseOne [0xBF, 0xFF] = .ok (.luma 63 15 15, 2)) ∧
    parseOne [0xC0] = .ok (.run 0, 1) ∧ parseOne [0xFD] = .ok (.run 61, 1) := by decide

theorem witness_InvalidTagIsNeverRaised :
    ∃ s u, s.status ≠ .error (.invalidTag 0) ∧ step s = .next u := ⟨State.reset, State.reset, by decide, rfl⟩

theorem witness_TruncatedChunksFail :
    (∀ l, (chunkAt Color.black l).phase = .decChunks) ∧
    (chunkAt Color.black []).inputLen ≤ (chunkAt Color.black []).pos ∧
    ((chunkAt Color.black [0xFE, 1, 2]).byteAt 14 = 0xFE ∧ (chunkAt Color.black [0xFE, 1, 2]).inputLen = 17) ∧
    ((chunkAt Color.black [0xFF, 1, 2, 3]).byteAt 14 = 0xFF ∧
      (chunkAt Color.black [0xFF, 1, 2, 3]).inputLen = 18) ∧
    (0x80 ≤ ((chunkAt Color.black [0x80]).byteAt 14).toNat ∧ ((chunkAt Color.black [0xBF]).byteAt 14).toNat ≤ 0xBF ∧
      (chunkAt Color.black [0xBF]).inputLen = 15) :=
  ⟨fun _ => rfl, by decide, by decide, by decide, by decide⟩

theorem witness_SerializerBytes : (61#6).toNat ≤ 61 ∧ 62 ≤ (62#6).toNat := by decide

theorem witness_ParseInvertsSerialize :
    ((Instr.run 61).wellFormed = true ∧ Instr.run 61 ≠ .endMark) ∧ parseOne [0x35] = .ok (.index 53, 1) := by decide

theorem witness_ListingDecodeInvertsEncode :
    (Instr.run 61).wellFormed = true ∧ Instr.endMark.wellFormed = true := by decide

theorem witness_EndMarkerIsSevenIndexZeroAndIndexOne : 0 < 7 ∧ 6 < 7 := by decide

theorem witness_HashDoesNotDependOnTheWidth : 6 ≤ 6 := by decide

theorem witness_CacheHoldsColorsAtTheirOwnSlots :
    (∃ t, CacheOk (chunkAt Color.black [0x40]) ∧ step (chunkAt Color.black [0x40]) = .next t) ∧
    (∃ t, Waiting (issued [.decode []]) ∧ (issued [.decode []]).host = .decode [] :: [] ∧
      step (issued [.decode []]) = .next t) := ⟨⟨_, CacheOk.initRegs State.reset, rfl⟩, ⟨_, .inl rfl, rfl, rfl⟩⟩

/-- A store with room for exactly one pixel, the hypothesis of RgbResult, RgbaResult, DiffResult and LumaResult. -/
theorem witness_RgbResult_RgbaResult_DiffResult_LumaResult : Room (bounded 1 (chunkAt Color.black [])) 1 := by
  intro c h; cases h; decide

theorem witness_IndexResult :
    (¬ (1#6 = 1 ∧ 7 ≤ ((chunkAt Color.black []).setZc 6).zc) ∧ Room ((chunkAt Color.black []).setZc 6) 1) ∧
    7 ≤ ((chunkAt Color.black []).setZc 7).zc := ⟨⟨by decide, room_of_unbounded rfl _⟩, by decide⟩

theorem witness_RunResult : (61#6).toNat ≤ 61 ∧ Room (bounded 62 (chunkAt Color.black [])) ((61#6).toNat + 1) := by
  refine ⟨by decide, ?_⟩; intro c h; cases h; decide

theorem witness_ReservedRunIsRefused : 62 ≤ (62#6).toNat ∧ 62 ≤ (63#6).toNat := by decide

theorem witness_EndMarkResult : Room (bounded 7 (chunkAt Color.black [])) 7 := by intro c h; cases h; decide

/-- For the cache update and the zero-counter rule: an Index(0), an ordinary Index(1), a terminating one, and a Run. -/
theorem witness_CacheUpdateByVariant :
    ((Instr.index 1).wellFormed = true ∧ Instr.index 1 ≠ .endMark ∧
      ¬ (Instr.index 1 = .index 1 ∧ 7 ≤ (chunkAt Color.black []).zc) ∧
      Room (chunkAt Color.black []) (applied (.index 1) (chunkAt Color.black [])).length) ∧
    ((Instr.run 61).wellFormed = true ∧ ¬ (Instr.run 61 = .index 1 ∧ 7 ≤ ((chunkAt Color.black []).setZc 7).zc)) :=
  ⟨⟨rfl, by decide, by decide, room_of_unbounded rfl _⟩, by decide⟩

theorem witness_ZeroCounterRule :
    Room ((chunkAt Color.black []).setZc 7) (applied (.index 1) ((chunkAt Color.black []).setZc 7)).length ∧
    (Instr.index 1 ≠ .index 0 ∧ 7 ≤ ((chunkAt Color.black []).setZc 7).zc) ∧
    ¬ (7 ≤ ((chunkAt Color.black []).setZc 6).zc ∧ Instr.index 1 = .index 1) :=
  ⟨room_of_unbounded rfl _, by decide, by decide⟩

theorem witness_InstructionFrame : ∃ t, exec (.run 61) (chunkAt Color.black []) = .next t := ⟨_, rfl⟩

theorem witness_FullStoreRaisesBufferBounds :
    (bounded 61 (chunkAt Color.black [])).cfg.pixelStoreCapacity = some 61 ∧
    (bounded 61 (chunkAt Color.black [])).outpix.length ≤ 61 ∧
    61 < (bounded 61 (chunkAt Color.black [])).outpix.length +
      (applied (.run 61) (bounded 61 (chunkAt Color.black []))).length := by decide

theorem witness_StepRunsTheParsedChunk :
    (chunkAt Color.black [0xFD]).phase = .decChunks ∧
    parseOne ((chunkAt Color.black [0xFD]).input.drop (chunkAt Color.black [0xFD]).pos) = .ok (.run 61, 1) := by decide

theorem witness_MarkerRunsAsEightSteps :
    (chunkAt Color.black endMarker).phase = .decChunks ∧
    (chunkAt Color.black endMarker).input.drop (chunkAt Color.black endMarker).pos = encode .endMark ++ [] ∧
    Room (chunkAt Color.black endMarker) 7 := ⟨rfl, by decide, room_of_unbounded rfl _⟩

theorem witness_LoopEndsOnlyAtTheMarker :
    ((chunkAt Color.black [0x01]).setZc 7).phase = .decChunks ∧ 7 ≤ ((chunkAt Color.black [0x01]).setZc 7).zc ∧
    ((chunkAt Color.black [0x01]).setZc 7).pos < ((chunkAt Color.black [0x01]).setZc 7).inputLen ∧
    ((chunkAt Color.black [0x01]).setZc 7).byteAt ((chunkAt Color.black [0x01]).setZc 7).pos = 0x01 := by decide

/-- Too few, exactly enough, and too many pixels for an image of 1 by 1. -/
theorem witness_FinishTrimsAndChecksTheCount :
    (∀ n, (finishAt n).phase = .decFinish) ∧ 7 ≤ (finishAt 7).outpix.length ∧
    ((finishAt 7).outpix.take ((finishAt 7).outpix.length - 7)).length < 1 ∧
    ((finishAt 8).outpix.take ((finishAt 8).outpix.length - 7)).length = 1 ∧
    1 < ((finishAt 9).outpix.take ((finishAt 9).outpix.length - 7)).length :=
  ⟨fun _ => rfl, by decide, by decide, by decide, by decide⟩

theorem witness_DecodedImageIsRowMajor :
    ∃ t, (finishAt 8).phase = .decFinish ∧ step (finishAt 8) = .next t ∧ t.phase = .done ∧
      0 < t.hdr.width.toNat ∧ 0 < t.hdr.height.toNat := ⟨_, rfl, rfl, rfl, by decide, by decide⟩

theorem finishAt_inv : Inv (finishAt 8) := by
  refine ⟨CacheOk.initRegs State.reset, by decide, room_of_unbounded rfl 0, ?_, ?_,
    fun _ => ⟨⟨by decide, by decide, by decide, by decide, fun _ => by decide⟩, by decide, by decide⟩, ?_, ?_, ?_⟩ <;>
    intro h <;> cases h

theorem witness_EndStateOfADecode :
    ∃ t, Inv (finishAt 8) ∧ (finishAt 8).phase = .decFinish ∧ step (finishAt 8) = .next t ∧ t.phase = .done :=
  ⟨_, finishAt_inv, rfl, rfl, rfl⟩

theorem witness_StepKeepsTheInvariant : ∃ t, Inv (finishAt 8) ∧ step (finishAt 8) = .next t := ⟨_, finishAt_inv, rfl⟩

theorem witness_TrailingBytesAreIgnored :
    Waiting State.reset ∧
    (∃ t, steps (10 + 1) (issued [.decode (headerOf 0 0 ++ endMarker)]) = .next t ∧ t.phase = .done) ∧
    (∃ t, steps (10 + 1) (issued [.decode (headerOf 1 1 ++ endMarker)]) = .next t ∧
      t.status = .error (.tooFew 0 1)) :=
  ⟨.inl rfl, ⟨_, rfl, rfl⟩, ⟨_, rfl, rfl⟩⟩

theorem witness_ChunkStepsMakeProgress :
    ∃ t, (chunkAt Color.black [0xC0]).phase = .decChunks ∧
      (chunkAt Color.black [0xC0]).pos ≤ (chunkAt Color.black [0xC0]).inputLen ∧
      step (chunkAt Color.black [0xC0]) = .next t := ⟨_, rfl, by decide, rfl⟩

theorem witness_EveryDecodeEnds :
    Waiting (issued [.decode []]) ∧ (issued [.decode []]).host = [.decode []] := ⟨.inl rfl, rfl⟩

theorem witness_ErrorEntry :
    ∃ t, Busy (chunkAt Color.black []) ∧ step (chunkAt Color.black []) = .next t ∧ t.phase = .failed ∧ t.host = [] :=
  ⟨_, by simp [Busy, Waiting, chunkAt], rfl, rfl, rfl⟩

theorem witness_StatusChangesOnlyAtAFailureOrAStart :
    ∃ t, step (chunkAt Color.black []) = .next t ∧ t.status ≠ (chunkAt Color.black []).status := ⟨_, rfl, by decide⟩

theorem witness_PhasesFollowTheSequencer : ∃ t, step (chunkAt Color.black []) = .next t := ⟨_, rfl⟩

theorem witness_PipelinesKeepToTheirRegisters :
    (∃ t, Busy (chunkAt Color.black []) ∧ Decoding (chunkAt Color.black []) ∧
      step (chunkAt Color.black []) = .next t) ∧
    (∃ t, Busy (encodeStarted 0 0 [] State.reset) ∧ Encoding (encodeStarted 0 0 [] State.reset) ∧
      step (encodeStarted 0 0 [] State.reset) = .next t) :=
  ⟨⟨_, by simp [Busy, Waiting, chunkAt], .inr (.inl rfl), rfl⟩,
    ⟨_, by simp [Busy, Waiting, encodeStarted], .inl rfl, rfl⟩⟩

theorem encodeStarted_inv : Inv (encodeStarted 1 1 [Color.black] State.reset) := by
  refine ⟨CacheOk.initRegs State.reset, by decide, room_of_unbounded rfl 0, ?_, ?_, ?_,
    fun _ => ⟨⟨by decide, rfl, by decide, by decide, .inr ⟨rfl, rfl⟩⟩, rfl, rfl⟩, ?_, ?_⟩ <;> intro h <;> cases h

theorem witness_InvariantStatesNeverFault : Inv (encodeStarted 1 1 [Color.black] State.reset) := encodeStarted_inv

theorem witness_EncodeHasNoFailureMode :
    (Inv (encodeStarted 1 1 [Color.black] State.reset) ∧ Encoding (encodeStarted 1 1 [Color.black] State.reset)) ∧
    (Waiting (issued [.encode 1 1 [Color.black]]) ∧
      (issued [.encode 1 1 [Color.black]]).host = .encode 1 1 [Color.black] :: []) :=
  ⟨⟨encodeStarted_inv, .inl rfl⟩, ⟨.inl rfl, rfl⟩⟩

/-- A pixel in its slot; changed alpha; deltas of -2 and of +1; green +31 and red relative +7; green +32. -/
theorem witness_SelectionByTrueDeltas :
    (selecting ⟨100, 100, 100, 255⟩).cacheRead (Color.hash ⟨100, 100, 100, 255⟩) = ⟨100, 100, 100, 255⟩ ∧
    (selecting ⟨100, 100, 100, 255⟩).cacheRead (Color.hash ⟨100, 100, 100, 254⟩) ≠ ⟨100, 100, 100, 254⟩ ∧
    (trueDelta 98 100 = -2 ∧ trueDelta 101 100 = 1) ∧
    (trueDelta 131 100 = 31 ∧ trueDelta (138 - 100) (131 - 100) = 7) ∧ trueDelta 132 100 = 32 := by decide

/-- The last pixel, equal to PREV and not, and a pixel that is not the last. -/
theorem witness_PixelStep :
    (pixelsAt Color.black 1 [Color.black]).phase = .encPixels ∧
    (pixelsAt Color.black 1 [Color.black]).pixIn[(pixelsAt Color.black 1 [Color.black]).idx]? = some Color.black ∧
    (pixelsAt Color.black 1 [Color.black]).prev = Color.black ∧
    (pixelsAt Color.trans 2 [Color.black, Color.black]).pixIn[0]? = some Color.black ∧
    Color.black ≠ (pixelsAt Color.trans 2 [Color.black, Color.black]).prev := by decide

theorem witness_EncodeFinishStep : ((pixelsAt Color.black 1 [Color.black]).setPhase .encFinish).phase = .encFinish := rfl

/-- An image of one pixel, and one of none, for EncodeEndsAfterExactlyItsPixels, EncodedStreamLayout,
EncoderAndDecoderAgree and DecodeOfEncodeIsTheImage; the decoder's store holds exactly `W * H + 7` pixels. -/
theorem witness_WholeEncode :
    (Waiting (issued [.encode 1 1 [Color.black]]) ∧
      (issued [.encode 1 1 [Color.black]]).host = [.encode 1 1 [Color.black]] ∧
      [Color.black].length = (1#32).toNat * (1#32).toNat) ∧
    (Waiting (issued [.encode 0 7 []]) ∧ ([] : List Color).length = (0#32).toNat * (7#32).toNat) ∧
    Waiting (bounded 8 State.reset) ∧
    (∀ cap, (bounded 8 State.reset).cfg.pixelStoreCapacity = some cap → (1#32).toNat * (1#32).toNat + 7 ≤ cap) := by
  refine ⟨⟨.inl rfl, rfl, rfl⟩, ⟨.inl rfl, rfl⟩, .inl rfl, ?_⟩
  intro cap h
  cases h
  decide

end Sys2Proof.Tests
end

section
/-! Nothing crosses an operation boundary (10_state.md R38). A waiting core carries HDR and the operands of earlier
commands into the next operation (logs 17, 18) and nothing else. The proof runs two cores side by side: the relation
`SameOperation` lets them differ in exactly those fields, as far as the running operation does not read them; a
command establishes it, every step keeps it, and what the host observes is a function of the rest. -/

namespace Sys2Proof.Machine

/-! ### Two runs side by side -/

/-- Two steps end alike: both go on, to states that `R` relates, or both stop for the same reason. -/
inductive EndAlike (R : State → State → Prop) :
    Host.Outcome State Fault Refusal → Host.Outcome State Fault Refusal → Prop where
  | next {t t' : State} (h : R t t') : EndAlike R (.next t) (.next t')
  | fault (r : Fault) : EndAlike R (.fault r) (.fault r)
  | refused (r : Refusal) : EndAlike R (.refused r) (.refused r)

theorem EndAlike.imp {R Q : State → State → Prop} {x x' : Host.Outcome State Fault Refusal} (h : EndAlike R x x')
    (imp : ∀ {t t'}, x = .next t → R t t' → Q t t') : EndAlike Q x x' := by
  cases h with
  | next h => exact .next (imp rfl h)
  | fault r => exact .fault r
  | refused r => exact .refused r

/-- One more step in front of two runs. -/
theorem EndAlike.steps_succ {R : State → State → Prop} {n : Nat} {s s' : State} (h : EndAlike R (step s) (step s'))
    (go : ∀ {t t'}, R t t' → EndAlike R (steps n t) (steps n t')) :
    EndAlike R (steps (n + 1) s) (steps (n + 1) s') := by
  rw [steps, steps]
  generalize step s = x, step s' = x' at h
  cases h with
  | next h => exact go h
  | fault r => exact .fault r
  | refused r => exact .refused r

/-- A relation that every step keeps is kept by every run. -/
theorem EndAlike.steps {R : State → State → Prop} (keep : ∀ {s s'}, R s s' → EndAlike R (step s) (step s'))
    (n : Nat) : ∀ {s s' : State}, R s s' → EndAlike R (steps n s) (steps n s') := by
  induction n with
  | zero => exact fun h => .next h
  | succ n ih => exact fun h => steps_succ (keep h) ih

/-- Runs that end in states observed alike are observed alike. -/
theorem EndAlike.observed_eq {R : State → State → Prop} {op : OpKind} {n : Nat} {s s' : State}
    (see : ∀ {t t'}, R t t' → observe op t = observe op t') (h : EndAlike R (Machine.steps n s) (Machine.steps n s')) :
    observed op n s = observed op n s' := by
  unfold observed
  generalize Machine.steps n s = x, Machine.steps n s' = x' at h
  cases h with
  | next h => exact congrArg some (see h)
  | fault r => rfl
  | refused r => rfl

/-! ### HDR and the operands, exchanged -/

/-- `s` with HDR and the operands of `o`: the fields a command start does not set whatever the command is. -/
def State.withOperandsOf (s o : State) : State :=
  { s with hdr := o.hdr, input := o.input, wIn := o.wIn, hIn := o.hIn, pixIn := o.pixIn }

/-- What an attempt reaches, seen through a function on states. -/
def Attempt.map (f : State → State) : Attempt → Attempt
  | .ok s => .ok (f s)
  | .raised e s => .raised e (f s)

section
variable (s o : State)

@[simp] theorem withOperandsOf_prev : (s.withOperandsOf o).prev = s.prev := rfl
@[simp] theorem withOperandsOf_idx : (s.withOperandsOf o).idx = s.idx := rfl
@[simp] theorem withOperandsOf_hdr : (s.withOperandsOf o).hdr = o.hdr := rfl
@[simp] theorem withOperandsOf_outpix : (s.withOperandsOf o).outpix = s.outpix := rfl
@[simp] theorem withOperandsOf_input : (s.withOperandsOf o).input = o.input := rfl
@[simp] theorem withOperandsOf_wIn : (s.withOperandsOf o).wIn = o.wIn := rfl
@[simp] theorem withOperandsOf_hIn : (s.withOperandsOf o).hIn = o.hIn := rfl
@[simp] theorem withOperandsOf_pixIn : (s.withOperandsOf o).pixIn = o.pixIn := rfl

theorem append_withOperandsOf (p : Color) :
    append p (s.withOperandsOf o) = (append p s).map (·.withOperandsOf o) := by
  by_cases h : Room s 1
  · rw [append_ok h, append_ok (s := s.withOperandsOf o) h]
    rfl
  · simp only [Room, not_forall] at h
    obtain ⟨c, hc, hlt⟩ := h
    rw [append_full hc (by omega), append_full (s := s.withOperandsOf o) hc (Nat.le_of_lt_succ (not_le.mp hlt))]
    rfl

theorem appendAll_withOperandsOf (px : List Color) :
    appendAll px (s.withOperandsOf o) = (appendAll px s).map (·.withOperandsOf o) := by
  induction px generalizing s with
  | nil => rfl
  | cons p ps ih =>
    rw [appendAll, appendAll, append_withOperandsOf]
    cases append p s with
    | ok t => exact ih t
    | raised e t => rfl

theorem expandChunk_withOperandsOf (c : Instr) (px : List Color) (w : Bool) :
    expandChunk c px w (s.withOperandsOf o) = (expandChunk c px w s).map (·.withOperandsOf o) := by
  have e : appendAll px (((s.withOperandsOf o).advance c.lengthBytes).setZc (zcAfter (s.withOperandsOf o).zc c)) = _ :=
    appendAll_withOperandsOf ((s.advance c.lengthBytes).setZc (zcAfter s.zc c)) o px
  rw [expandChunk, expandChunk, e]
  cases appendAll px ((s.advance c.lengthBytes).setZc (zcAfter s.zc c)) with
  | ok t => cases w <;> rfl
  | raised e t => rfl

theorem applied_withOperandsOf (c : Instr) : applied c (s.withOperandsOf o) = applied c s := by cases c <;> rfl

theorem select_withOperandsOf (px : Color) : select px (s.withOperandsOf o) = select px s := rfl

theorem firstRunUpdate_withOperandsOf (e : Bool) :
    firstRunUpdate e (s.withOperandsOf o) = (firstRunUpdate e s).withOperandsOf o := by
  have h : firstRunWrite e (s.withOperandsOf o).fre = firstRunWrite e s.fre := rfl
  rw [firstRunUpdate, firstRunUpdate, h]
  cases firstRunWrite e s.fre <;> rfl

theorem flushed_withOperandsOf : flushed (s.withOperandsOf o) = (flushed s).withOperandsOf o :=
  firstRunUpdate_withOperandsOf ((s.emit (flushBytes s.run.toNat)).setRun 0) o (decide (s.run ≠ 0))

theorem emitted_withOperandsOf (px : Color) :
    emitted px (s.withOperandsOf o) = (emitted px s).withOperandsOf o := by
  unfold emitted
  rw [flushed_withOperandsOf, select_withOperandsOf]
  rfl

end

/-! ### The pixel step as one state -/

/-- The state after the pixel `px`, but for the end of the image: it extends the run or is emitted (R213, R214). -/
def afterPixel (px : Color) (s : State) : State :=
  if px = s.prev then s.nextPixel.setRun (s.run + 1) else emitted px s.nextPixel

theorem encPixelStep_none {s : State} (h : s.pixIn[s.idx]? = none) :
    encPixelStep s = .fault .pixelIndexOutOfRange := by
  rw [encPixelStep, h]

theorem encPixelStep_some {s : State} {px : Color} (h : s.pixIn[s.idx]? = some px) :
    encPixelStep s = .next (endPixel (afterPixel px s)) := by
  rcases encPixelStep_cases s with ⟨hx, -⟩ | ⟨hx, e⟩ | ⟨q, hx, hne, e⟩ <;> rw [h] at hx <;> cases hx
  · rw [e, afterPixel, if_pos rfl]
  · rw [e, afterPixel, if_neg hne]

/-! ### A step on exchanged operands

Away from the header parse a step only reads HDR and the operands: if `o` holds what it reads, it does from
`s.withOperandsOf o` what it does from `s`. -/

/-- The two outcomes differ in HDR and the operands, where the second has those of `o`. -/
abbrev SameBut (o : State) : Host.Outcome State Fault Refusal → Host.Outcome State Fault Refusal → Prop :=
  EndAlike fun t t' => t' = t.withOperandsOf o

theorem settle_withOperandsOf (o : State) (a : Attempt) : SameBut o a.settle (a.map (·.withOperandsOf o)).settle := by
  cases a with
  | ok t => exact .next rfl
  | raised e t => exact .next rfl

section
variable {s o : State}

theorem exec_withOperandsOf {c : Instr} (hm : c ≠ .endMark) : SameBut o (exec c s) (exec c (s.withOperandsOf o)) := by
  cases hw : c.wellFormed with
  | false =>
    rw [exec_illFormed hw, exec_illFormed hw]
    exact .refused _
  | true =>
    cases he : endsLoop s.zc c with
    | true =>
      rw [exec_endsLoop he, exec_endsLoop (s := s.withOperandsOf o) he]
      exact .next rfl
    | false =>
      rw [exec_eq_expandChunk hw hm he, exec_eq_expandChunk (s := s.withOperandsOf o) hw hm he,
        applied_withOperandsOf, expandChunk_withOperandsOf]
      exact settle_withOperandsOf o _

theorem fetchChunk_ne_endMark {c : Instr} (h : fetchChunk s = .ok c) : c ≠ .endMark := by
  unfold fetchChunk at h
  split at h
  · next hq =>
    cases h
    exact (fetchOk_of_parse hq).spec.2.1
  · cases h

theorem decChunkStep_withOperandsOf (hi : o.input = s.input) :
    SameBut o (decChunkStep s) (decChunkStep (s.withOperandsOf o)) := by
  have hf : fetchChunk (s.withOperandsOf o) = fetchChunk s := by
    unfold fetchChunk
    rw [withOperandsOf_input, hi]
    rfl
  rw [decChunkStep, decChunkStep, hf]
  cases hc : fetchChunk s with
  | error e => exact .next rfl
  | ok c => exact exec_withOperandsOf (fetchChunk_ne_endMark hc)

theorem checkCount_withOperandsOf (hh : o.hdr = s.hdr) :
    checkCount (s.withOperandsOf o) = (checkCount s).map (·.withOperandsOf o) := by
  simp only [checkCount, withOperandsOf_hdr, withOperandsOf_outpix, hh]
  split
  · rfl
  · split <;> rfl

theorem decFinishStep_withOperandsOf (hh : o.hdr = s.hdr) :
    SameBut o (decFinishStep s) (decFinishStep (s.withOperandsOf o)) := by
  have hc : checkCount (trimPhantoms (s.withOperandsOf o)) = _ := checkCount_withOperandsOf (s := trimPhantoms s) hh
  rw [decFinishStep, decFinishStep, hc]
  cases checkCount (trimPhantoms s) with
  | ok t => exact .next rfl
  | raised e t => exact .next rfl

theorem encHeaderStep_withOperandsOf (hh : o.hdr = s.hdr) (hw : o.wIn = s.wIn) (hi : o.hIn = s.hIn) :
    SameBut o (encHeaderStep s) (encHeaderStep (s.withOperandsOf o)) := by
  refine .next ?_
  rw [serializeHeader, withOperandsOf_hdr, withOperandsOf_wIn, withOperandsOf_hIn, hh, hw, hi]
  rfl

theorem endPixel_withOperandsOf (hw : o.wIn = s.wIn) (hi : o.hIn = s.hIn) :
    endPixel (s.withOperandsOf o) = (endPixel s).withOperandsOf o := by
  rw [endPixel, endPixel, withOperandsOf_wIn, withOperandsOf_hIn, hw, hi, withOperandsOf_idx]
  split <;> rfl

theorem afterPixel_withOperandsOf (px : Color) :
    afterPixel px (s.withOperandsOf o) = (afterPixel px s).withOperandsOf o := by
  rw [afterPixel, afterPixel, withOperandsOf_prev]
  split
  · rfl
  · exact emitted_withOperandsOf s.nextPixel o px

theorem afterPixel_operands (px : Color) : (afterPixel px s).wIn = s.wIn ∧ (afterPixel px s).hIn = s.hIn := by
  unfold afterPixel
  split <;> simp [emitted]

theorem encPixelStep_withOperandsOf (hw : o.wIn = s.wIn) (hi : o.hIn = s.hIn) (hx : o.pixIn = s.pixIn) :
    SameBut o (encPixelStep s) (encPixelStep (s.withOperandsOf o)) := by
  have hp : (s.withOperandsOf o).pixIn[(s.withOperandsOf o).idx]? = s.pixIn[s.idx]? := by simp [hx]
  cases hq : s.pixIn[s.idx]? with
  | none =>
    rw [encPixelStep_none hq, encPixelStep_none (hp.trans hq)]
    exact .fault _
  | some px =>
    obtain ⟨ew, ei⟩ := afterPixel_operands (s := s) px
    rw [encPixelStep_some hq, encPixelStep_some (hp.trans hq), afterPixel_withOperandsOf,
      endPixel_withOperandsOf (hw.trans ew.symm) (hi.trans ei.symm)]
    exact .next rfl

theorem encFinishStep_withOperandsOf : SameBut o (encFinishStep s) (encFinishStep (s.withOperandsOf o)) := by
  rw [encFinishStep_eq, encFinishStep_eq, flushed_withOperandsOf]
  exact .next rfl

theorem step_withOperandsOf (hb : Busy s) (hd : s.phase ≠ .decHeader) (hh : o.hdr = s.hdr)
    (hi : Decoding s → o.input = s.input)
    (hx : Encoding s → o.wIn = s.wIn ∧ o.hIn = s.hIn ∧ o.pixIn = s.pixIn) :
    SameBut o (step s) (step (s.withOperandsOf o)) := by
  cases hp : s.phase with
  | idle => exact absurd (.inl hp) hb
  | done => exact absurd (.inr (.inl hp)) hb
  | failed => exact absurd (.inr (.inr hp)) hb
  | decHeader => exact absurd hp hd
  | decChunks =>
    rw [step_decChunks hp, step_decChunks (s := s.withOperandsOf o) hp]
    exact decChunkStep_withOperandsOf (hi (.inr (.inl hp)))
  | decFinish =>
    rw [step_decFinish hp, step_decFinish (s := s.withOperandsOf o) hp]
    exact decFinishStep_withOperandsOf hh
  | encHeader =>
    obtain ⟨h1, h2, -⟩ := hx (.inl hp)
    rw [step_encHeader hp, step_encHeader (s := s.withOperandsOf o) hp]
    exact encHeaderStep_withOperandsOf hh h1 h2
  | encPixels =>
    obtain ⟨h1, h2, h3⟩ := hx (.inr (.inl hp))
    rw [step_encPixels hp, step_encPixels (s := s.withOperandsOf o) hp]
    exact encPixelStep_withOperandsOf h1 h2 h3
  | encFinish =>
    rw [step_encFinish hp, step_encFinish (s := s.withOperandsOf o) hp]
    exact encFinishStep_withOperandsOf

end

/-- A step of an operation past its header parse keeps HDR and the operands. -/
theorem step_keepsOperands {s t : State} (hb : Busy s) (hd : s.phase ≠ .decHeader) (h : step s = .next t) :
    t = t.withOperandsOf s := by
  have hs : SameBut s (step s) (step s) := step_withOperandsOf hb hd rfl (fun _ => rfl) fun _ => ⟨rfl, rfl, rfl⟩
  rw [h] at hs
  cases hs with
  | next e => exact e

theorem not_decoding_endPixel {s : State} (hp : s.phase = .encPixels) : ¬ Decoding (endPixel s) := by
  unfold endPixel
  split <;> simp [Decoding, hp]

/-- No step of one pipeline leads into the other (R33). -/
theorem step_keepsPipeline {s t : State} (hb : Busy s) (h : step s = .next t) :
    (Decoding t → Decoding s) ∧ (Encoding t → Encoding s) := by
  cases step_next h with
  | wait hw => exact absurd hw hb
  | startDecode hw => exact absurd hw hb
  | startEncode hw => exact absurd hw hb
  | encHeader hp =>
    refine ⟨fun hd => absurd hd ?_, fun _ => .inl hp⟩
    unfold Decoding
    split <;> simp
  | runPixel hp hx => exact ⟨fun hd => absurd hd (not_decoding_endPixel hp), fun _ => .inr (.inl hp)⟩
  | emitPixel hp hx =>
    exact ⟨fun hd => absurd hd (not_decoding_endPixel (by simpa [emitted] using hp)), fun _ => .inr (.inl hp)⟩
  | _ => simp_all [Decoding, Encoding, afterChunk, midChunk]

/-! ### The relation between the two runs -/

/-- Two cores at the same place of the same operation: they differ at most in HDR and the operands, and agree on
those the operation still reads. -/
structure SameOperation (s s' : State) : Prop where
  regs : s' = s.withOperandsOf s'
  hdr : s.phase = .idle ∨ s.phase = .failed ∨ s.phase = .decHeader ∨ s'.hdr = s.hdr
  input : Decoding s → s'.input = s.input
  pixels : Encoding s → s'.wIn = s.wIn ∧ s'.hIn = s.hIn ∧ s'.pixIn = s.pixIn

/-- What the host observes of the two cores is the same. -/
theorem SameOperation.observe_eq {s s' : State} (h : SameOperation s s') (op : OpKind) :
    observe op s = observe op s' := by
  obtain ⟨hr, hh, -, -⟩ := h
  have hp : s'.phase = s.phase := (congrArg State.phase hr :)
  have hs : s'.status = s.status := (congrArg State.status hr :)
  have ho : s'.outpix = s.outpix := (congrArg State.outpix hr :)
  have hb : s'.outb = s.outb := (congrArg State.outb hr :)
  unfold observe
  rw [hp, hs, ho, hb]
  cases he : s.phase with
  | done => rw [show s'.hdr = s.hdr by simpa [he] using hh]
  | _ => rfl

/-- Two cores that are given the same command start alike (R180, R210). -/
theorem startCommand_sameOperation (c : Command) {s s' : State} (hc : s.cfg = s'.cfg) (hh : s.host = s'.host) :
    EndAlike SameOperation (startCommand c s) (startCommand c s') := by
  cases c with
  | decode input =>
    refine .next ⟨?_, .inr (.inr (.inl rfl)), fun _ => rfl, fun h => ?_⟩
    · simp [startDecode, State.initRegs, State.withOperandsOf, hc, hh]
    · simp [startDecode, Encoding] at h
  | encode w h px =>
    by_cases hl : px.length = pixelCount w h
    · rw [startCommand, startCommand, startEncode_ok hl, startEncode_ok hl]
      refine .next ⟨?_, .inr (.inr (.inr rfl)), fun h => ?_, fun _ => ⟨rfl, rfl, rfl⟩⟩
      · simp [encodeStarted, State.initRegs, State.withOperandsOf, hc, hh]
      · simp [encodeStarted, Decoding] at h
    · rw [startCommand, startCommand, startEncode_refused hl, startEncode_refused hl]
      exact .refused _

theorem step_command {s : State} {c : Command} {rest : List Command} (hw : Waiting s) (hh : s.host = c :: rest) :
    step s = startCommand c { s with host := rest } := by rw [step_waiting hw, waitStep, hh]

theorem step_command_sameOperation {s s' : State} {c : Command} {rest : List Command} (hw : Waiting s)
    (hw' : Waiting s') (hc : s.cfg = s'.cfg) (hh : s.host = c :: rest) (hh' : s'.host = c :: rest) :
    EndAlike SameOperation (step s) (step s') := by
  rw [step_command hw hh, step_command hw' hh']
  exact startCommand_sameOperation c hc rfl

/-! ### Every step keeps the relation -/

/-- The error the header parse ends with, if any. -/
def Attempt.error? : Attempt → Option Error
  | .ok _ => none
  | .raised e _ => some e

/-- The error of the header parse depends on IN and POS alone (R101). -/
theorem parseHeader_error? (s : State) : (parseHeader s).error? =
    if s.inputLen < 4 then some (.truncatedInput s.pos (.field .magic))
    else if s.magicRead ≠ Magic.qoif then some (.badMagic s.magicRead)
    else if s.inputLen < 8 then some (.truncatedInput s.pos (.field .width))
    else if s.inputLen < 12 then some (.truncatedInput s.pos (.field .height))
    else if s.inputLen = 12 then some (.truncatedInput s.pos (.field .channels))
    else if s.inputLen = 13 then some (.truncatedInput s.pos (.field .colorspace))
    else none := by
  obtain ⟨e1, e2, e3, e4, e5, e6⟩ := parseHeader_error s
  split_ifs with h4 hm h8 h12 h13 h14
  · rw [e1 h4]; rfl
  · rw [e2 (by omega) hm]; rfl
  · rw [e3 (by omega) h8 (not_not.mp hm)]; rfl
  · rw [e4 (by omega) h12 (not_not.mp hm)]; rfl
  · rw [e5 h13 (not_not.mp hm)]; rfl
  · rw [e6 h14 (not_not.mp hm)]; rfl
  · rw [parseHeader_ok (by omega) (not_not.mp hm)]; rfl

theorem parseHeader_error?_congr {s s' : State} (hi : s'.input = s.input) (hp : s'.pos = s.pos) :
    (parseHeader s').error? = (parseHeader s).error? := by
  have hl : s'.inputLen = s.inputLen := congrArg List.length hi
  have hm : s'.magicRead = s.magicRead := by simp only [State.magicRead, State.byteAt, hi]
  rw [parseHeader_error?, parseHeader_error?, hl, hm, hp]

/-- The header parse reads IN alone: whatever HDR held, it ends with the same header or the same error. -/
theorem decHeaderStep_sameOperation {s o : State} (hi : o.input = s.input) :
    EndAlike SameOperation (decHeaderStep s) (decHeaderStep (s.withOperandsOf o)) := by
  have he := parseHeader_error?_congr (s := s) (s' := s.withOperandsOf o) hi rfl
  rcases parseHeader_cases s with ⟨-, -, e⟩ | ⟨-, er, h, e, -⟩ <;>
    rcases parseHeader_cases (s.withOperandsOf o) with ⟨-, -, e'⟩ | ⟨-, er', h', e', -⟩ <;>
    rw [e, e'] at he
  · have hr : headerRead (s.withOperandsOf o) = headerRead s := by
      simp [headerRead, State.magicRead, State.wordAt, State.byteAt, hi]
    rw [decHeaderStep, decHeaderStep, e, e']
    exact .next ⟨rfl, .inr (.inr (.inr hr)), fun _ => hi, by simp [Encoding]⟩
  · cases he
  · cases he
  · cases he
    rw [decHeaderStep, decHeaderStep, e, e']
    exact .next ⟨rfl, .inr (.inl rfl), by simp [Decoding], by simp [Encoding]⟩

theorem SameOperation.step_busy {s s' : State} (h : SameOperation s s') (hb : Busy s) :
    EndAlike SameOperation (step s) (step s') := by
  obtain ⟨hr, hh, hi, hx⟩ := h
  by_cases hd : s.phase = .decHeader
  · rw [hr, step_decHeader hd, step_decHeader (s := s.withOperandsOf s') hd]
    exact decHeaderStep_sameOperation (hi (.inl hd))
  · have hh' : s'.hdr = s.hdr := by
      rcases hh with hp | hp | hp | e
      · exact absurd (.inl hp) hb
      · exact absurd (.inr (.inr hp)) hb
      · exact absurd hp hd
      · exact e
    have both := step_withOperandsOf hb hd hh' hi hx
    rw [← hr] at both
    refine both.imp fun {t t'} ht e => ?_
    have kept := step_keepsOperands hb hd ht
    obtain ⟨dec, enc⟩ := step_keepsPipeline hb ht
    rw [e, kept]
    exact ⟨rfl, .inr (.inr (.inr hh')), fun h => hi (dec h), fun h => hx (enc h)⟩

/-- Two cores at the same place of the same operation stay there, also where the next command starts. -/
theorem SameOperation.step {s s' : State} (h : SameOperation s s') : EndAlike SameOperation (step s) (step s') := by
  by_cases hw : Waiting s
  · have hw' : Waiting s' := by rw [h.regs]; exact hw
    have hh : s'.host = s.host := (congrArg State.host h.regs :)
    cases hq : s.host with
    | nil =>
      rw [step_waiting hw, step_waiting hw', waitStep, waitStep, hh, hq]
      exact .next h
    | cons c rest =>
      exact step_command_sameOperation hw hw' (congrArg State.cfg h.regs).symm hq (hh.trans hq)
  · exact h.step_busy hw

/-- The registers a command sets before its first step (R38). -/
theorem startCommand_initialises {c : Command} {s t : State} (h : startCommand c s = .next t) :
    t.prev = Color.black ∧ (∀ k, t.cacheRead k = Color.trans) ∧ t.run = 0 ∧ t.fre = false ∧ t.zc = 0 ∧
      t.pos = 0 ∧ t.idx = 0 ∧ t.outpix = [] ∧ t.outb = [] := by
  cases c with
  | decode input =>
    cases h
    exact ⟨rfl, cacheRead_startDecode input s, rfl, rfl, rfl, rfl, rfl, rfl, rfl⟩
  | encode w ht px =>
    rw [startCommand] at h
    by_cases hl : px.length = pixelCount w ht
    · rw [startEncode_ok hl] at h
      cases h
      exact ⟨rfl, cacheRead_encodeStarted w ht px s, rfl, rfl, rfl, rfl, rfl, rfl, rfl⟩
    · rw [startEncode_refused hl] at h
      cases h

end Sys2Proof.Machine

open Sys2Proof Sys2Proof.Machine

/-- Settles O5: a command start relates the two cores by `SameOperation`, and every later step keeps that. -/
theorem nothingCrossesAnOperationBoundary : Obligations.NothingCrossesAnOperationBoundary := by
  refine ⟨fun s t c rest hw hh h => ?_, fun s s' c rest op n hw hw' hc hh hh' => ?_⟩
  · rw [step_command hw hh] at h
    exact startCommand_initialises h
  · have start := step_command_sameOperation hw hw' hc hh hh'
    have run : EndAlike SameOperation (steps (n + 1) s) (steps (n + 1) s') :=
      start.steps_succ (EndAlike.steps SameOperation.step n)
    exact run.observed_eq fun h => h.observe_eq op

end

section
/-! PARSE_ONE, tag by tag (30_encoding.md R74, R81): the ranges of the table are the four values of `tagPrefix`,
less the two exact tags, which are tested first. -/

namespace Sys2Proof

/-- The two top bits of a tag say in which quarter of 0 to 255 it lies. -/
theorem tagPrefix_toNat (t : Byte) : (tagPrefix t).toNat = t.toNat / 64 := by
  have ht : t.toNat < 256 := t.isLt
  simp only [tagPrefix, BitVec.extractLsb'_toNat, Nat.shiftRight_eq_div_pow]
  omega

theorem tagPrefix_eq_iff (t : Byte) (p : BitVec 2) : tagPrefix t = p ↔ t.toNat / 64 = p.toNat := by
  rw [← BitVec.toNat_inj, tagPrefix_toNat]

/-- Both exact tags have the top bits 11. -/
theorem ne_exactTags_of_tagPrefix_ne {t : Byte} (h : tagPrefix t ≠ 0b11#2) : t ≠ 0xFE#8 ∧ t ≠ 0xFF#8 :=
  ⟨by rintro rfl; exact h (by decide), by rintro rfl; exact h (by decide)⟩

theorem parseOne_index {t : Byte} (h : tagPrefix t = 0b00#2) (rest : List Byte) :
    parseOne (t :: rest) = .ok (.index (tagField t), 1) := by
  obtain ⟨hFE, hFF⟩ := ne_exactTags_of_tagPrefix_ne (t := t) (by simp [h])
  simp [parseOne, hFE, hFF, h]

theorem parseOne_diff {t : Byte} (h : tagPrefix t = 0b01#2) (rest : List Byte) :
    parseOne (t :: rest) = .ok (.diff (t.extractLsb' 4 2) (t.extractLsb' 2 2) (t.extractLsb' 0 2), 1) := by
  obtain ⟨hFE, hFF⟩ := ne_exactTags_of_tagPrefix_ne (t := t) (by simp [h])
  simp [parseOne, parseDiff, hFE, hFF, h]

theorem parseOne_luma {t : Byte} (h : tagPrefix t = 0b10#2) (b1 : Byte) (rest : List Byte) :
    parseOne (t :: b1 :: rest) = .ok (.luma (tagField t) (b1.extractLsb' 4 4) (b1.extractLsb' 0 4), 2) := by
  obtain ⟨hFE, hFF⟩ := ne_exactTags_of_tagPrefix_ne (t := t) (by simp [h])
  simp [parseOne, parseLuma, hFE, hFF, h]

theorem parseOne_run {t : Byte} (hFE : t ≠ 0xFE#8) (hFF : t ≠ 0xFF#8) (h : tagPrefix t = 0b11#2) (rest : List Byte) :
    parseOne (t :: rest) = .ok (.run (tagField t), 1) := by
  simp [parseOne, hFE, hFF, h]

theorem parseOne_rgb (r g b : Byte) (rest : List Byte) :
    parseOne (0xFE :: r :: g :: b :: rest) = .ok (.rgb r g b, 4) := rfl

theorem parseOne_rgba (r g b a : Byte) (rest : List Byte) :
    parseOne (0xFF :: r :: g :: b :: a :: rest) = .ok (.rgba r g b a, 5) := rfl

end Sys2Proof

open Sys2Proof Sys2Proof.Machine

/-- Settles O11: each range of tag values is a value of `tagPrefix`, `FE` and `FF` lie above the Run range, and
the parser's lemma for that variant answers. -/
theorem everyTagDecodesToItsVariant : Obligations.EveryTagDecodesToItsVariant := by
  intro t b1 b2 b3 b4 rest
  have pre (p : BitVec 2) (h : t.toNat / 64 = p.toNat) : tagPrefix t = p := (tagPrefix_eq_iff t p).mpr h
  refine ⟨fun hi => ?index, fun lo hi => ?diff, fun lo hi => ?luma, fun lo hi => ?run,
    parseOne_rgb b1 b2 b3 rest, parseOne_rgba b1 b2 b3 b4 rest⟩
  case index => exact parseOne_index (pre 0b00#2 (show t.toNat / 64 = 0 by omega)) rest
  case diff => exact parseOne_diff (pre 0b01#2 (show t.toNat / 64 = 1 by omega)) rest
  case luma => exact parseOne_luma (pre 0b10#2 (show t.toNat / 64 = 2 by omega)) b1 rest
  case run =>
    have hFE : t ≠ 0xFE#8 := by rintro rfl; exact absurd hi (by decide)
    have hFF : t ≠ 0xFF#8 := by rintro rfl; exact absurd hi (by decide)
    exact parseOne_run hFE hFF (pre 0b11#2 (show t.toNat / 64 = 3 by omega)) rest

end

section
/-! The header codec (40_header_codec.md R100 to R107): what the two header steps do, from the laws of the parse,
and that the parse reads back the bytes of a header. -/

namespace Sys2Proof.Machine

section
variable {s t : State} {e : Error}

/-- A header step whose parse raises an error enters it from the state the parse had reached (R247). -/
theorem step_decHeader_raised (hp : s.phase = .decHeader) (h : parseHeader s = .raised e t) :
    step s = .next (t.enterError e) := by
  rw [step_decHeader hp, decHeaderStep, h]
  rfl

/-- A header step on a whole header with the right magic goes on to the chunks (R100, R181). -/
theorem step_decHeader_parsed (hp : s.phase = .decHeader) (hl : 14 ≤ s.inputLen) (hm : s.magicRead = Magic.qoif) :
    step s = .next { s with hdr := headerRead s, pos := 14, phase := .decChunks } := by
  rw [step_decHeader hp, decHeaderStep, parseHeader_ok hl hm]
  rfl

end

theorem headerBytes_length (h : Header) : (headerBytes h).length = 14 := rfl

/-- The parse reads the fields of a header back from its bytes (R107). -/
theorem headerRead_of_headerBytes {s : State} {h : Header} {rest : List Byte}
    (hi : s.input = headerBytes h ++ rest) : headerRead s = h := by
  have readAt (a : Nat) : s.byteAt a = (headerBytes h ++ rest).getD a 0 := by rw [State.byteAt, hi]
  have width : s.wordAt 4 = h.width := by simp only [State.wordAt, readAt]; exact be32_of_bytes h.width
  have height : s.wordAt 8 = h.height := by simp only [State.wordAt, readAt]; exact be32_of_bytes h.height
  rw [headerRead, State.magicRead, width, height]
  simp only [readAt]
  rfl

end Sys2Proof.Machine

open Sys2Proof Sys2Proof.Machine

/-- Settles O6: each clause is the law of the parse for that case, under the step's error entry or its way on to
the chunks. -/
theorem headerStepReadsFieldsInOrder : Obligations.HeaderStepReadsFieldsInOrder := by
  intro s hp
  obtain ⟨magicCut, wrongMagic, widthCut, heightCut, channelsCut, colorspaceCut⟩ := parseHeader_error s
  refine ⟨fun h => step_decHeader_raised hp (magicCut h), fun h hne => ?_, fun hq => ?_⟩
  · have hm : s.magicRead ≠ Magic.qoif := fun hm => hne ((take_four_eq_magic s).mpr ⟨h, hm⟩)
    exact step_decHeader_raised hp (wrongMagic h hm)
  · obtain ⟨h4, hm⟩ := (take_four_eq_magic s).mp hq
    refine ⟨fun h => step_decHeader_raised hp (widthCut h4 h hm),
      fun ⟨h8, h12⟩ => step_decHeader_raised hp (heightCut h8 h12 hm),
      fun h => step_decHeader_raised hp (channelsCut h hm),
      fun h => step_decHeader_raised hp (colorspaceCut h hm), fun h => ?_⟩
    rw [step_decHeader_parsed hp h hm, headerRead, hm]
    rfl

/-- Settles O8: ENCODE's header step puts exactly `headerBytes h` into an empty OUTB, and the parse of those bytes
reads `h` back. -/
theorem headerRoundTrip : Obligations.HeaderRoundTrip := by
  intro h e e' s rest hq he hh ho hstep hp hi
  have written : e'.outb = headerBytes h := by
    rw [step_encHeader he, encHeaderStep] at hstep
    cases hstep
    simp [serializeHeader, ho, hh]
  rw [written] at hi
  have read : headerRead s = h := headerRead_of_headerBytes hi
  have whole : 14 ≤ s.inputLen := by
    rw [State.inputLen, hi, List.length_append, headerBytes_length]
    omega
  have magic : s.magicRead = Magic.qoif := (congrArg Header.magic read).trans hq
  rw [step_decHeader_parsed hp whole magic, read]

/-- Settles O7: the step emits `headerBytes` of HDR, whose first four bytes are the magic's. -/
theorem encodeHeaderStepEmitsFourteenBytes : Obligations.EncodeHeaderStepEmitsFourteenBytes := by
  intro s hp hq
  rw [step_encHeader hp, encHeaderStep, serializeHeader, headerBytes, hq]
  rfl

end

section
/-! The chunk codec (41_chunk_codec.md R120 to R135): a tag is taken apart into the fields it was put together from,
and put together again from the fields it is taken apart into, so PARSE_ONE and SERIALIZE_ONE invert each other. -/

namespace Sys2Proof

/-! ### Tags and their fields -/

@[simp] theorem tagPrefix_append (p : BitVec 2) (k : BitVec 6) : tagPrefix (p ++ k) = p :=
  BitVec.extractLsb'_append_eq_left

@[simp] theorem tagField_append (p : BitVec 2) (k : BitVec 6) : tagField (p ++ k) = k :=
  BitVec.extractLsb'_append_eq_right

theorem tagPrefix_append_tagField (t : Byte) : tagPrefix t ++ tagField t = t :=
  BitVec.extractLsb'_append_extractLsb'

/-- A byte is its four two-bit fields, the most significant first (30_encoding.md R78). -/
theorem twoBitFields_append (t : Byte) :
    tagPrefix t ++ t.extractLsb' 4 2 ++ t.extractLsb' 2 2 ++ t.extractLsb' 0 2 = t := by
  rw [tagPrefix, BitVec.extractLsb'_append_extractLsb'_eq_extractLsb' (start₂ := 6) (start₁ := 4) rfl,
    BitVec.extractLsb'_append_extractLsb'_eq_extractLsb' (start₂ := 4) (start₁ := 2) rfl]
  exact BitVec.extractLsb'_append_extractLsb'

/-- The two-bit fields of a byte put together from four are these four (R78). -/
theorem twoBitFields_of_append {t : Byte} {p dr dg db : BitVec 2} (ht : t = p ++ dr ++ dg ++ db) :
    tagPrefix t = p ∧ t.extractLsb' 4 2 = dr ∧ t.extractLsb' 2 2 = dg ∧ t.extractLsb' 0 2 = db := by
  subst ht
  refine ⟨?_, ?_, ?_, BitVec.extractLsb'_append_eq_right⟩
  · rw [tagPrefix, BitVec.extractLsb'_append_eq_of_le (by decide), BitVec.extractLsb'_append_eq_of_le (by decide)]
    exact BitVec.extractLsb'_append_eq_left
  · rw [BitVec.extractLsb'_append_eq_of_le (by decide), BitVec.extractLsb'_append_eq_of_le (by decide)]
    exact BitVec.extractLsb'_append_eq_right
  · rw [BitVec.extractLsb'_append_eq_of_le (by decide)]
    exact BitVec.extractLsb'_append_eq_right

/-- A Run tag with a field of at most 61 is neither of the exact tags (30_encoding.md R80, R85). -/
theorem runTag_ne_exactTags {n : BitVec 6} (h : n.toNat ≤ 61) :
    (0b11#2 ++ n : Byte) ≠ 0xFE#8 ∧ (0b11#2 ++ n : Byte) ≠ 0xFF#8 := by
  have field {t : Byte} (e : (0b11#2 ++ n : Byte) = t) : n = tagField t := by rw [← e, tagField_append]
  constructor <;> intro e <;> rw [field e] at h <;> exact absurd h (by decide)

/-! ### The two directions of R135 -/

/-- PARSE_ONE reads a well-formed chunk back from its bytes, whatever follows (R135). -/
theorem parseOne_encode_append {c : Instr} (hw : c.wellFormed = true) (hm : c ≠ .endMark) (rest : List Byte) :
    parseOne (encode c ++ rest) = .ok (c, c.lengthBytes) := by
  cases c with
  | rgb r g b => exact parseOne_rgb r g b rest
  | rgba r g b a => exact parseOne_rgba r g b a rest
  | index k => exact (parseOne_index (tagPrefix_append _ k) rest).trans (by rw [tagField_append]; rfl)
  | diff dr dg db =>
    obtain ⟨hp, hr, hg, hb⟩ := twoBitFields_of_append (p := 0b01#2) (dr := dr) (dg := dg) (db := db) rfl
    exact (parseOne_diff hp rest).trans (by rw [hr, hg, hb]; rfl)
  | luma dg drg dbg =>
    refine (parseOne_luma (tagPrefix_append _ dg) (drg ++ dbg) rest).trans ?_
    rw [tagField_append, BitVec.extractLsb'_append_eq_left, BitVec.extractLsb'_append_eq_right]
    rfl
  | run n =>
    obtain ⟨hFE, hFF⟩ := runTag_ne_exactTags (of_decide_eq_true hw)
    exact (parseOne_run hFE hFF (tagPrefix_append _ n) rest).trans (by rw [tagField_append]; rfl)
  | endMark => exact absurd rfl hm

/-- The bytes of a parsed chunk are those it was read from (R135). -/
theorem encode_of_parseOne_ok {bs : List Byte} {c : Instr} {n : Nat} (h : parseOne bs = .ok (c, n)) :
    encode c = bs.take n := by
  have tag {t : Byte} {p : BitVec 2} (hp : tagPrefix t = p) : p ++ tagField t = t :=
    hp ▸ tagPrefix_append_tagField t
  rcases parseOne_ok_cases h with ⟨r, g, b, rest, rfl, rfl, rfl⟩ | ⟨r, g, b, a, rest, rfl, rfl, rfl⟩ |
    ⟨t, rest, rfl, hp, rfl, rfl⟩ | ⟨t, rest, rfl, hp, rfl, rfl⟩ | ⟨t, b1, rest, rfl, hp, rfl, rfl⟩ |
    ⟨t, rest, rfl, -, -, hp, rfl, rfl⟩
  case inl | inr.inl => rfl
  case inr.inr.inl | inr.inr.inr.inr.inr => exact congrArg (fun x : Byte => [x]) (tag hp)
  case inr.inr.inr.inl => exact congrArg (fun x : Byte => [x]) (hp ▸ twoBitFields_append t)
  case inr.inr.inr.inr.inl =>
    exact congrArg₂ (fun x y : Byte => [x, y]) (tag hp) BitVec.extractLsb'_append_extractLsb'

/-! ### The listing decoder -/

open Laws in
theorem encode_length : ∀ i : Instr, (encode i).length = i.lengthBytes
  | .rgb r g b => EncodeLength.rgb r g b
  | .rgba r g b a => EncodeLength.rgba r g b a
  | .index k => EncodeLength.index k
  | .diff dr dg db => EncodeLength.diff dr dg db
  | .luma dg drg dbg => EncodeLength.luma dg drg dbg
  | .run n => EncodeLength.run n
  | .endMark => EncodeLength.endMark

/-- A chunk is shorter than the end marker (R73). -/
theorem lengthBytes_lt_of_ne_endMark {c : Instr} (hm : c ≠ .endMark) : c.lengthBytes < 8 := by
  cases c with
  | endMark => exact absurd rfl hm
  | rgb | rgba | index | diff | luma | run => exact of_decide_eq_true rfl

/-- On fewer bytes than the end marker has, the listing decoder is PARSE_ONE. -/
theorem decode_of_length_lt {bs : List Byte} (h : bs.length < 8) : decode bs = parseOne bs := by
  refine if_neg fun e => ?_
  have hl : (bs.take 8).length = 8 := congrArg List.length e
  rw [List.length_take] at hl
  omega

/-! ### The serializer -/

section
open Machine

theorem serializeOne_ok {c : Instr} (hw : c.wellFormed = true) (s : State) :
    serializeOne c s = .ok (s.emit (encode c)) := if_pos hw

theorem serializeOne_illFormed {c : Instr} (hw : c.wellFormed = false) (s : State) :
    serializeOne c s = .error (.illFormedChunk c) := if_neg (Bool.eq_false_iff.mp hw)

end

/-! ### Tags as the rules write them: shifted fields, or-ed together (R131 to R134) -/

theorem tag_eq_or (p : BitVec 2) (k : BitVec 6) : (p ++ k : Byte) = p.setWidth 8 <<< 6 ||| k.setWidth 8 :=
  (BitVec.setWidth_eq (p ++ k)).symm.trans BitVec.setWidth_append_eq_shiftLeft_setWidth_or

theorem nibbles_eq_or (x y : BitVec 4) : (x ++ y : Byte) = x.setWidth 8 <<< 4 ||| y.setWidth 8 :=
  (BitVec.setWidth_eq (x ++ y)).symm.trans BitVec.setWidth_append_eq_shiftLeft_setWidth_or

theorem twoBitFields_eq_or (p dr dg db : BitVec 2) : (p ++ dr ++ dg ++ db : Byte) =
    p.setWidth 8 <<< 6 ||| dr.setWidth 8 <<< 4 ||| dg.setWidth 8 <<< 2 ||| db.setWidth 8 :=
  (BitVec.setWidth_eq (p ++ dr ++ dg ++ db)).symm.trans
    BitVec.setWidth_append_append_append_eq_shiftLeft_setWidth_or

end Sys2Proof

open Sys2Proof Sys2Proof.Machine

/-- Settles O15: PARSE_ONE reads the fields back from every tag that they were put together into, and a parsed
chunk's fields put its bytes together again. -/
theorem parseInvertsSerialize : Obligations.ParseInvertsSerialize :=
  ⟨fun c rest hw hm => encode_length c ▸ parseOne_encode_append hw hm rest,
    fun _ _ _ h => ⟨(parseOne_ok h).1, encode_of_parseOne_ok h⟩⟩

/-- Settles O16: a chunk is too short to be the end marker, so the listing decoder is PARSE_ONE on it; `.END` is the
marker itself. -/
theorem listingDecodeInvertsEncode : Obligations.ListingDecodeInvertsEncode := by
  refine ⟨fun i hw => ?_, fun rest => rfl⟩
  by_cases hm : i = .endMark
  · subst hm
    rfl
  · have short : (encode i).length < 8 := encode_length i ▸ lengthBytes_lt_of_ne_endMark hm
    have read := parseOne_encode_append hw hm []
    rw [List.append_nil] at read
    rw [decode_of_length_lt short, read]

/-- Settles O14: a well-formed chunk's bytes are appended to OUTB, each tag written as its prefix or-ed with its
fields; a Run of 62 or 63 is ill-formed. -/
theorem serializerBytes : Obligations.SerializerBytes := by
  intro s
  have emits {c : Instr} {bs : List Byte} (hw : c.wellFormed = true) (hb : encode c = bs) :
      serializeOne c s = .ok { s with outb := s.outb ++ bs } := hb ▸ serializeOne_ok hw s
  refine ⟨fun _ _ _ => emits rfl rfl, fun _ _ _ _ => emits rfl rfl, fun k => emits rfl ?index,
    fun dr dg db => emits rfl ?diff, fun dg drg dbg => emits rfl ?luma,
    fun n h => emits (decide_eq_true h) ?run, fun n h => serializeOne_illFormed (c := .run n) ?illFormed s⟩
  case index => exact congrArg (fun t : Byte => [t]) ((tag_eq_or 0b00#2 k).trans BitVec.zero_or)
  case diff => exact congrArg (fun t : Byte => [t]) (twoBitFields_eq_or 0b01#2 dr dg db)
  case luma => exact congrArg₂ (fun t b1 : Byte => [t, b1]) (tag_eq_or 0b10#2 dg) (nibbles_eq_or drg dbg)
  case run => exact congrArg (fun t : Byte => [t]) (tag_eq_or 0b11#2 n)
  case illFormed =>
    have reserved : ¬ n.toNat ≤ 61 := by omega
    exact decide_eq_false reserved

/-- Settles O17: each word is laid out as its bytes and read. -/
theorem wordsDecodeAsTheSpecWritesThem : Obligations.WordsDecodeAsTheSpecWritesThem := by
  refine ⟨?rgb, ?rgba, ?index, ?diff, ?luma, ?run, ?endMark⟩ <;> decide

end

section
/-! The color cache (42_predictor_cache.md R150 to R152): the hash as a number, in whatever width it is computed, and
the colors a step leaves in the slots. -/

namespace Sys2Proof

/-! ### The hash -/

/-- The hash is the exact sum modulo 64 (R150). -/
theorem Color.hash_toNat (c : Color) :
    c.hash.toNat = (3 * c.r.toNat + 5 * c.g.toNat + 7 * c.b.toNat + 11 * c.a.toNat) % 64 :=
  BitVec.toNat_ofNat ..

/-- Six bits or more do not lose anything of a number modulo 64. -/
theorem toNat_ofNat_mod_64 {n : Nat} (h : 6 ≤ n) (x : Nat) : (BitVec.ofNat n x).toNat % 64 = x % 64 := by
  rw [BitVec.toNat_ofNat]
  exact Nat.mod_mod_of_dvd x (Nat.pow_dvd_pow 2 h)

/-- The weighted sum in wrapping `n`-bit arithmetic is the exact sum, wrapped once. -/
theorem wrappingSum_eq_ofNat (n : Nat) (c : Color) :
    BitVec.ofNat n 3 * c.r.setWidth n + BitVec.ofNat n 5 * c.g.setWidth n + BitVec.ofNat n 7 * c.b.setWidth n +
        BitVec.ofNat n 11 * c.a.setWidth n =
      BitVec.ofNat n (3 * c.r.toNat + 5 * c.g.toNat + 7 * c.b.toNat + 11 * c.a.toNat) := by
  simp only [BitVec.ofNat_add, BitVec.ofNat_mul, BitVec.ofNat_toNat]

namespace Machine

/-! ### The slots -/

theorem CacheOk.flushed {s : State} (h : CacheOk s) : CacheOk (flushed s) := by
  intro k
  rw [flushed_cacheRead]
  split
  · next hw => exact .inr (by rw [hw.2.2])
  · exact h k

theorem CacheOk.emitted {s : State} (h : CacheOk s) (px : Color) : CacheOk (emitted px s) :=
  (h.flushed.congr rfl : CacheOk (((Machine.flushed s).emit _).setPrev px)).cacheWrite px

theorem CacheOk.endPixel {s : State} (h : CacheOk s) : CacheOk (endPixel s) := by
  rw [endPixel_eq]
  exact h.congr rfl

theorem CacheOk.afterChunk {s : State} (h : CacheOk s) (c : Instr) (px : List Color) (p : Color) :
    CacheOk (afterChunk c px p s) := by
  cases hw : writesCache c with
  | true => exact (h.cacheWrite p).congr (by rw [Machine.afterChunk, hw]; rfl)
  | false => exact h.congr (by rw [Machine.afterChunk, hw]; rfl)

/-- Every step keeps colors at their own slots: a command's start clears the slots, and the others are written by
`cacheWrite` alone (R152). -/
theorem step_keepsCacheOk {s t : State} (h : CacheOk s) (hs : step s = .next t) : CacheOk t := by
  cases step_next hs with
  | wait => exact h
  | startDecode => exact fun k => .inl (cacheRead_startDecode _ _ k)
  | startEncode => exact fun k => .inl (cacheRead_encodeStarted _ _ _ _ k)
  | chunk => exact h.afterChunk _ _ _
  | runPixel => exact (h.congr rfl : CacheOk (s.nextPixel.setRun (s.run + 1))).endPixel
  | emitPixel => exact ((h.congr rfl : CacheOk s.nextPixel).emitted _).endPixel
  | encodeDone => exact h.flushed.congr rfl
  | header | headerError | parseError | endLoop | storeFull | countError | decodeDone | encHeader => exact h.congr rfl

/-- The color of slot 0 has hash 0, also where the slot was never written: TRANS hashes to 0. -/
theorem CacheOk.hash_slot_zero {s : State} (h : CacheOk s) : (s.cacheRead 0).hash = 0 := by
  rcases h 0 with e | e
  · rw [e]; rfl
  · exact e

end Machine

end Sys2Proof

open Sys2Proof Sys2Proof.Machine

/-- Settles O19: the 6-bit hash as a number, and its value on the four colors. -/
theorem hashIsTheWeightedSumMod64 : Obligations.HashIsTheWeightedSumMod64 :=
  ⟨Color.hash_toNat, rfl, rfl, rfl, rfl⟩

/-- Settles O20: the wrapping sum is the exact sum modulo 2^n, and 64 divides 2^n. -/
theorem hashDoesNotDependOnTheWidth : Obligations.HashDoesNotDependOnTheWidth := by
  intro n c hn
  rw [wrappingSum_eq_ofNat, toNat_ofNat_mod_64 hn, Color.hash_toNat]

/-- Settles O21: a command's start leaves TRANS in every slot, and every step keeps colors at their own slots. -/
theorem cacheHoldsColorsAtTheirOwnSlots : Obligations.CacheHoldsColorsAtTheirOwnSlots := by
  refine ⟨cacheRead_cacheWrite, fun s t c rest hw hh hs k => ?_, fun s t h hs => step_keepsCacheOk h hs,
    fun s h => h.hash_slot_zero⟩
  rw [step_command hw hh] at hs
  obtain ⟨-, hc, -⟩ := startCommand_initialises hs
  exact .inl (hc k)

end

section
/-! What each chunk does when the store has room (42_predictor_cache.md R154 to R159): the general next state
`afterChunk` of a chunk, at the pixels of each variant. -/

namespace Sys2Proof.Machine

section
variable {c : Instr} {s : State}

theorem endsLoop_eq_false (h : ¬ (c = .index 1 ∧ 7 ≤ s.zc)) : endsLoop s.zc c = false := by
  rw [endsLoop, ← Bool.decide_and, decide_eq_false_iff_not]
  exact fun ⟨hz, hc⟩ => h ⟨hc, hz⟩

theorem ne_index_of_writesCache (h : writesCache c = true) (k : BitVec 6) : c ≠ .index k := by
  rintro rfl
  cases h

/-- A chunk that writes the cache and whose last pixel is `p`: ZC is 0, PREV and the slot of `p` are `p`
(R160, R182, R183). -/
theorem exec_writing {p : Color} (hw : c.wellFormed = true) (hm : c ≠ .endMark) (hc : writesCache c = true)
    (hr : Room s (applied c s).length) (hp : (applied c s).getLastD s.prev = p) :
    exec c s = .next { s with
      pos := s.pos + c.lengthBytes
      zc := 0
      outpix := s.outpix ++ applied c s
      prev := p
      cache := (s.cacheWrite p).cache } := by
  rw [exec_room hw hm (endsLoop_eq_false fun h => ne_index_of_writesCache hc 1 h.1) hr, hp, afterChunk, if_pos hc,
    zcAfter, if_neg (ne_index_of_writesCache hc 0)]

end

/-! ### The bias arithmetic as numbers: subtracting a bias is adding its complement -/

theorem diffChannel_toNat (p : Byte) (f : BitVec 2) :
    (diffChannel p f).toNat = (p.toNat + f.toNat + 254) % 256 := by
  have hf : f.toNat < 4 := f.isLt
  simp only [diffChannel, BitVec.toNat_sub, BitVec.toNat_add, BitVec.toNat_setWidth, BitVec.reduceToNat]
  omega

theorem lumaGreen_toNat (p : Byte) (dg : BitVec 6) :
    (lumaGreen p dg).toNat = (p.toNat + dg.toNat + 224) % 256 := by
  have hg : dg.toNat < 64 := dg.isLt
  simp only [lumaGreen, BitVec.toNat_sub, BitVec.toNat_add, BitVec.toNat_setWidth, BitVec.reduceToNat]
  omega

theorem lumaChannel_toNat (p : Byte) (f : BitVec 4) (dg : BitVec 6) :
    (lumaChannel p f dg).toNat = (p.toNat + f.toNat + dg.toNat + 216) % 256 := by
  have hf : f.toNat < 16 := f.isLt
  have hg : dg.toNat < 64 := dg.isLt
  simp only [lumaChannel, BitVec.toNat_sub, BitVec.toNat_add, BitVec.toNat_setWidth, BitVec.reduceToNat]
  omega

end Sys2Proof.Machine

open Sys2Proof Sys2Proof.Machine

/-- Settles O22: RGB writes the cache, and its one pixel takes the alpha of PREV. -/
theorem rgbResult : Obligations.RgbResult :=
  fun r g b _ hr => exec_writing (c := .rgb r g b) rfl nofun rfl hr rfl

/-- Settles O23: RGBA writes the cache, and its one pixel is literal. -/
theorem rgbaResult : Obligations.RgbaResult :=
  fun r g b a _ hr => exec_writing (c := .rgba r g b a) rfl nofun rfl hr rfl

/-- Settles O24: INDEX is the one variant that does not write the cache, and the one that can end the loop. -/
theorem indexResult : Obligations.IndexResult := by
  intro k s
  refine ⟨fun hk hr => ?_, fun hk hz => ?_⟩
  · have stays : endsLoop s.zc (.index k) = false := endsLoop_eq_false fun ⟨hc, hz⟩ => hk ⟨Instr.index.inj hc, hz⟩
    have count : zcAfter s.zc (.index k) = if k = 0 then s.zc + 1 else 0 := by simp only [zcAfter, Instr.index.injEq]
    rw [exec_room (c := .index k) rfl nofun stays hr, afterChunk, count]
    rfl
  · subst hk
    exact exec_endsLoop (by simpa [endsLoop] using hz)

/-- Settles O25: the pixel is `diffPixel`, whose channels are PREV's plus the field plus 254, modulo 256. -/
theorem diffResult : Obligations.DiffResult :=
  fun dr dg db s hr => ⟨diffPixel s.prev dr dg db, diffChannel_toNat _ dr, diffChannel_toNat _ dg,
    diffChannel_toNat _ db, rfl, exec_writing (c := .diff dr dg db) rfl nofun rfl hr rfl⟩

/-- Settles O26: the pixel is `lumaPixel`; the biases 32 and 40 are 224 and 216 modulo 256. -/
theorem lumaResult : Obligations.LumaResult :=
  fun dg drg dbg s hr => ⟨lumaPixel s.prev dg drg dbg, lumaGreen_toNat _ dg, lumaChannel_toNat _ drg dg,
    lumaChannel_toNat _ dbg dg, rfl, exec_writing (c := .luma dg drg dbg) rfl nofun rfl hr rfl⟩

/-- Settles O27: RUN writes the cache, and the last of its copies of PREV is PREV. -/
theorem runResult : Obligations.RunResult := by
  intro n s hn hr
  have room : Room s (applied (.run n) s).length := by rwa [applied, List.length_replicate]
  have last : (applied (.run n) s).getLastD s.prev = s.prev := by
    rw [applied, List.replicate_succ', List.getLastD_concat]
  exact exec_writing (c := .run n) (decide_eq_true hn) nofun rfl room last

end

section
/-! The decoder keeps up with the encoder (42_predictor_cache.md R161). The encoder's pixel steps and the decoder's
chunk steps run in lockstep: `CaughtUp` relates an encoder between two pixels to a decoder that has read every chunk
the encoder has emitted. The two headers establish it, a pending run leaves the decoder where it is, and a flush and a
selected chunk are read in as many steps as they have chunks. -/

namespace Sys2Proof.Machine

/-! ### The selected chunk expands to its pixel -/

section
variable {x p : Byte}

/-- The decoder's Diff channel undoes the encoder's Diff difference (R157, R217). -/
theorem diffChannel_diffField (h : diffField x p < 4) : diffChannel p ((diffField x p).setWidth 2) = x := by
  rw [diffChannel, BitVec.setWidth_setWidth_eq_self (w' := 2) h, diffField]
  ring

/-- The decoder's Luma green undoes the encoder's green difference (R158, R218). -/
theorem lumaGreen_lumaGreenField (h : lumaGreenField (diffField x p) < 64) :
    lumaGreen p ((lumaGreenField (diffField x p)).setWidth 6) = x := by
  rw [lumaGreen, BitVec.setWidth_setWidth_eq_self (w' := 6) h, lumaGreenField, diffField]
  ring

/-- The decoder's Luma red or blue undoes the encoder's difference relative to green: the biases cancel. -/
theorem lumaChannel_lumaRelField {dg' : Byte} (hg : dg' < 64) (h : lumaRelField (diffField x p) dg' < 16) :
    lumaChannel p ((lumaRelField (diffField x p) dg').setWidth 4) (dg'.setWidth 6) = x := by
  rw [lumaChannel, BitVec.setWidth_setWidth_eq_self (w' := 4) h, BitVec.setWidth_setWidth_eq_self (w' := 6) hg,
    lumaRelField, diffField]
  ring

end

section
variable {px : Color} {s t : State}

theorem select_of_hit (h : s.cacheRead px.hash = px) : select px s = .index px.hash := if_pos h

theorem select_of_miss (h : s.cacheRead px.hash ≠ px) :
    select px s = if px.a = s.prev.a then selectOpaque px s.prev else .rgba px.r px.g px.b px.a := if_neg h

/-- A delta chunk or Rgb carries the pixel relative to PREV. -/
theorem applied_selectOpaque (h : px.a = s.prev.a) : applied (selectOpaque px s.prev) s = [px] := by
  unfold selectOpaque
  simp only
  split
  · next hf =>
    simp only [diffFits, Bool.and_eq_true, decide_eq_true_eq] at hf
    obtain ⟨⟨hr, hg⟩, hb⟩ := hf
    show [diffPixel s.prev _ _ _] = [px]
    rw [diffPixel, diffChannel_diffField hr, diffChannel_diffField hg, diffChannel_diffField hb, ← h]
  · split
    · next hf =>
      simp only [lumaFits, Bool.and_eq_true, decide_eq_true_eq] at hf
      obtain ⟨⟨hg, hr⟩, hb⟩ := hf
      show [lumaPixel s.prev _ _ _] = [px]
      rw [lumaPixel, lumaGreen_lumaGreenField hg, lumaChannel_lumaRelField hg hr, lumaChannel_lumaRelField hg hb, ← h]
    · rw [applied, ← h]

theorem writesCache_selectOpaque (px prev : Color) : writesCache (selectOpaque px prev) = true := by
  unfold selectOpaque
  simp only
  split
  · rfl
  · split <;> rfl

/-- The chunk the encoder selects expands to the pixel it was selected for. -/
theorem applied_select (px : Color) (s : State) : applied (select px s) s = [px] := by
  by_cases hit : s.cacheRead px.hash = px
  · rw [select_of_hit hit, applied, hit]
  · rw [select_of_miss hit]
    split
    · next ha => exact applied_selectOpaque ha
    · rfl

theorem writesCache_select_of_miss (h : s.cacheRead px.hash ≠ px) : writesCache (select px s) = true := by
  rw [select_of_miss h]
  split
  · exact writesCache_selectOpaque px s.prev
  · rfl

/-- Only a hit is selected as an Index. -/
theorem select_eq_index {k : BitVec 6} (h : select px s = .index k) : px.hash = k ∧ s.cacheRead px.hash = px := by
  by_cases hit : s.cacheRead px.hash = px
  · rw [select_of_hit hit] at h
    exact ⟨Instr.index.inj h, hit⟩
  · exact absurd h (ne_index_of_writesCache (writesCache_select_of_miss hit) k)

/-- Whether the decoder writes the cache for the selected chunk makes no difference: it does not for a hit, where
the slot holds the pixel already (R160, R221). -/
theorem cache_after_select (px : Color) (s : State) :
    (if writesCache (select px s) then (s.cacheWrite px).cache else s.cache) = (s.cacheWrite px).cache := by
  by_cases hit : s.cacheRead px.hash = px
  · rw [cacheWrite_eq_self hit, ite_self]
  · rw [writesCache_select_of_miss hit, if_pos rfl]

/-- A chunk's pixels depend on PREV and the cache alone. -/
theorem applied_congr (hp : t.prev = s.prev) (hc : t.cache = s.cache) (c : Instr) : applied c t = applied c s := by
  cases c <;> simp only [applied, hp, cacheRead_congr hc]

end

/-! ### The decoder on a chunk's bytes -/

section
variable {r : State} {rest : List Byte}

/-- Where the bytes of a chunk stand at POS, the step runs the chunk (R182). -/
theorem step_at_chunk {c : Instr} (hp : r.phase = .decChunks) (hi : r.input.drop r.pos = encode c ++ rest)
    (hw : c.wellFormed = true) (hm : c ≠ .endMark) : step r = exec c r := by
  rw [step_decChunks hp, decChunkStep, fetchChunk, hi, parseOne_encode_append hw hm]

/-- Past the bytes of a chunk stands what follows them. -/
theorem drop_past_chunk {c : Instr} (hi : r.input.drop r.pos = encode c ++ rest) :
    r.input.drop (r.pos + c.lengthBytes) = rest := by
  rw [← List.drop_drop, hi, ← encode_length, List.drop_left]

/-- The decoder after Run chunks of `len` bytes for `n` copies of PREV. -/
def afterRuns (n len : Nat) (r : State) : State :=
  { r with
    pos := r.pos + len
    zc := 0
    outpix := r.outpix ++ List.replicate n r.prev
    cache := (r.cacheWrite r.prev).cache }

theorem cacheWrite_afterRuns (n len : Nat) (r : State) :
    (afterRuns n len r).cacheWrite r.prev = afterRuns n len r :=
  cacheWrite_eq_self (cacheRead_cacheWrite_self r r.prev)

/-- Runs add up. -/
theorem afterRuns_afterRuns (m n k l : Nat) (r : State) :
    afterRuns n l (afterRuns m k r) = afterRuns (m + n) (k + l) r := by
  have hc : ((afterRuns m k r).cacheWrite r.prev).cache = (afterRuns m k r).cache := by rw [cacheWrite_afterRuns]
  rw [afterRuns, show (afterRuns m k r).prev = r.prev from rfl, hc]
  simp only [afterRuns, Nat.add_assoc, List.append_assoc, List.replicate_append_replicate]

theorem exec_run {n : BitVec 6} (hn : n.toNat ≤ 61) (hr : Room r (n.toNat + 1)) :
    exec (.run n) r = .next (afterRuns (n.toNat + 1) 1 r) := runResult n r hn hr

theorem runChunks_zero (fuel : Nat) : runChunks fuel 0 = [] := by cases fuel <;> rfl

/-- The first Run chunk of a flush, and the rest of it (R214). -/
theorem runChunks_succ {run : Nat} (h : 0 < run) (fuel : Nat) : ∃ n : BitVec 6, n.toNat ≤ 61 ∧
    n.toNat + 1 ≤ run ∧ runChunks (fuel + 1) run = .run n :: runChunks fuel (run - (n.toNat + 1)) := by
  have hn : (BitVec.ofNat 6 (min run 62 - 1)).toNat = min run 62 - 1 := by
    rw [BitVec.toNat_ofNat]
    omega
  refine ⟨BitVec.ofNat 6 (min run 62 - 1), by omega, by omega, ?_⟩
  rw [runChunks, if_neg h.ne', hn, Nat.sub_add_cancel (by omega)]

/-- The decoder reads the Run chunks of a flush. -/
theorem steps_runChunks {fuel : Nat} : ∀ {run : Nat} {r : State}, 0 < run → run ≤ fuel → r.phase = .decChunks →
    r.input.drop r.pos = (runChunks fuel run).flatMap encode ++ rest → Room r run →
    ∃ m, steps m r = .next (afterRuns run ((runChunks fuel run).flatMap encode).length r) := by
  induction fuel with
  | zero => intro run r h0 hf; omega
  | succ fuel ih =>
    intro run r h0 hf hp hi hr
    obtain ⟨n, hn, hle, hc⟩ := runChunks_succ h0 fuel
    rw [hc, List.flatMap_cons, List.append_assoc] at hi
    have first : step r = .next (afterRuns (n.toNat + 1) 1 r) :=
      (step_at_chunk hp hi (decide_eq_true hn) nofun).trans (exec_run hn (hr.mono hle))
    rw [hc, List.flatMap_cons, List.length_append]
    by_cases last : run = n.toNat + 1
    · refine ⟨1, (steps_succ first 0).trans ?_⟩
      rw [last, Nat.sub_self, runChunks_zero]
      rfl
    · have room : Room (afterRuns (n.toNat + 1) 1 r) (run - (n.toNat + 1)) := by
        intro cap h
        have := hr cap h
        simp only [afterRuns, List.length_append, List.length_replicate]
        omega
      obtain ⟨m, hm⟩ := ih (r := afterRuns (n.toNat + 1) 1 r) (by omega) (by omega) hp (drop_past_chunk hi) room
      refine ⟨m + 1, (steps_succ first m).trans ?_⟩
      rw [hm, afterRuns_afterRuns, Nat.add_sub_cancel' hle]
      rfl

end

/-! ### The relation -/

/-- The decoder `r`, reading `stream` into a store of at least `size` pixels, has read the chunks that the encoder `e`
has emitted for the pixels `ps`: PREV and the cache agree, and the decoder has those pixels but for the run still
pending in `e`. ZC is at most 1, and counts only while PREV is the color of slot 0, so no selected chunk ends the
loop. -/
structure CaughtUp (stream : List Byte) (size : Nat) (ps : List Color) (e r : State) : Prop where
  phase : r.phase = .decChunks
  input : r.input = stream
  store : ∀ cap, r.cfg.pixelStoreCapacity = some cap → size ≤ cap
  pos : r.pos = e.outb.length
  prev : r.prev = e.prev
  cache : r.cache = e.cache
  pixels : ps = r.outpix ++ List.replicate e.run.toNat e.prev
  zc_le : r.zc ≤ 1
  slot_zero : 0 < r.zc → r.prev = r.cacheRead 0
  seed : SeedOrCached e

/-- The first flush that emits a Run writes PREV to its slot; later ones find it there (R161, R215). -/
theorem flushed_cache {e : State} (h : SeedOrCached e) (hr : e.run ≠ 0) :
    (flushed e).cache = (e.cacheWrite e.prev).cache := by
  refine cache_ext fun k => ?_
  rw [flushed_cacheRead, cacheRead_cacheWrite]
  by_cases hk : k = e.prev.hash
  · rcases h with cached | ⟨-, hf⟩
    · rw [if_pos hk, hk, cached, ite_self]
    · rw [if_pos ⟨hr, hf, hk⟩, if_pos hk]
  · rw [if_neg fun h => hk h.2.2, if_neg hk]

namespace CaughtUp

variable {stream : List Byte} {size : Nat} {ps : List Color} {e e' r : State} {px : Color}

/-- The relation reads OUTB, PREV, CACHE, RUN and FRE of the encoder alone. -/
theorem congr (h : CaughtUp stream size ps e r) (ho : e'.outb = e.outb) (hp : e'.prev = e.prev)
    (hc : e'.cache = e.cache) (hr : e'.run = e.run) (hf : e'.fre = e.fre) : CaughtUp stream size ps e' r := by
  have seed : SeedOrCached e' := by
    rw [SeedOrCached, hp, hf, cacheRead_congr hc]
    exact h.seed
  exact ⟨h.phase, h.input, h.store, by rw [ho, h.pos], by rw [hp, h.prev], by rw [hc, h.cache],
    by rw [hr, hp, ← h.pixels], h.zc_le, h.slot_zero, seed⟩

theorem length_eq (h : CaughtUp stream size ps e r) : ps.length = r.outpix.length + e.run.toNat := by
  rw [h.pixels, List.length_append, List.length_replicate]

theorem outpix_eq (h : CaughtUp stream size ps e r) : r.outpix = ps.take (ps.length - e.run.toNat) := by
  rw [h.length_eq, Nat.add_sub_cancel, h.pixels, List.take_left]

theorem room (h : CaughtUp stream size ps e r) {k : Nat} (hk : r.outpix.length + k ≤ size) : Room r k :=
  fun cap hc => hk.trans (h.store cap hc)

/-- What the encoder emits next stands at the decoder's POS. -/
theorem drop_eq (h : CaughtUp stream size ps e r) {bs : List Byte} (ho : e.outb ++ bs <+: stream) :
    ∃ rest, r.input.drop r.pos = bs ++ rest := by
  obtain ⟨rest, hs⟩ := ho
  refine ⟨rest, ?_⟩
  rw [h.input, h.pos, ← hs, List.append_assoc, List.drop_left]

/-- A pixel equal to PREV joins the pending run, and the decoder stays where it is (R213). -/
theorem extend_run (h : CaughtUp stream size ps e r) (hl : ps.length < size) (hs : size < 2 ^ 64) :
    CaughtUp stream size (ps ++ [e.prev]) (e.nextPixel.setRun (e.run + 1)) r := by
  have hrun : (e.run + 1).toNat = e.run.toNat + 1 := by
    have := h.length_eq
    rw [BitVec.toNat_add_of_lt]
    · rfl
    · show e.run.toNat + 1 < 2 ^ 64
      omega
  refine ⟨h.phase, h.input, h.store, h.pos, h.prev, h.cache, ?_, h.zc_le, h.slot_zero, h.seed⟩
  show ps ++ [e.prev] = r.outpix ++ List.replicate (e.run + 1).toNat e.prev
  rw [hrun, List.replicate_succ', ← List.append_assoc, ← h.pixels]

/-- The decoder reads the Run chunks of a flush (R214, R215). -/
theorem flush (h : CaughtUp stream size ps e r) (hl : ps.length ≤ size) (ho : (flushed e).outb <+: stream) :
    ∃ m r', steps m r = .next r' ∧ CaughtUp stream size ps (flushed e) r' := by
  by_cases h0 : e.run = 0
  · rw [flushed_zero h0]
    exact ⟨0, r, rfl, h⟩
  · have pending : 0 < e.run.toNat := Nat.pos_of_ne_zero fun h' => h0 (BitVec.eq_of_toNat_eq h')
    rw [flushed_outb] at ho
    obtain ⟨rest, hi⟩ := h.drop_eq ho
    obtain ⟨m, hm⟩ := steps_runChunks pending le_rfl h.phase hi (h.room (h.length_eq ▸ hl))
    have hcache : (r.cacheWrite r.prev).cache = (flushed e).cache := by
      simp only [flushed_cache h.seed h0, State.cacheWrite_cache, h.prev, h.cache]
    have cached : (flushed e).cacheRead e.prev.hash = e.prev := by
      rw [cacheRead_congr (flushed_cache h.seed h0), cacheRead_cacheWrite_self]
    refine ⟨m, _, hm, h.phase, h.input, h.store, ?_, ?_, hcache, ?_, Nat.zero_le 1, nofun, .inl ?_⟩
    · rw [flushed_outb, List.length_append, ← h.pos]
      rfl
    · rw [flushed_prev]
      exact h.prev
    · rw [flushed_run, afterRuns, h.prev, ← h.pixels]
      exact (List.append_nil ps).symm
    · rw [flushed_prev, cached]

/-- The encoder never selects Index(0) twice in a row: while ZC counts, the color of slot 0 is PREV, from which the
pixel differs. -/
theorem zc_eq_zero_of_select (h : CaughtUp stream size ps e r) (hne : px ≠ e.prev) (hc : select px e = .index 0) :
    r.zc = 0 := by
  obtain ⟨hk, hit⟩ := select_eq_index hc
  refine Nat.eq_zero_of_not_pos fun hz => hne ?_
  rw [← h.prev, h.slot_zero hz, cacheRead_congr h.cache, ← hk, hit]

/-- The decoder reads the chunk selected for a pixel that differs from PREV (R216 to R221). -/
theorem read_selected (h : CaughtUp stream size ps e r) (h0 : e.run = 0) (hl : ps.length < size) (hne : px ≠ e.prev)
    (ho : e.outb ++ encode (select px e) <+: stream) :
    ∃ r', step r = .next r' ∧
      CaughtUp stream size (ps ++ [px]) (((e.emit (encode (select px e))).setPrev px).cacheWrite px) r' := by
  obtain ⟨hw, hm, -⟩ := select_chunk px e
  obtain ⟨rest, hi⟩ := h.drop_eq ho
  have stored : ps = r.outpix := by rw [h.pixels, h0]; exact List.append_nil _
  have pixel : applied (select px e) r = [px] := (applied_congr h.prev h.cache _).trans (applied_select px e)
  have stays : endsLoop r.zc (select px e) = false := endsLoop_eq_false fun ⟨_, hz⟩ => absurd h.zc_le (by omega)
  have run := step_at_chunk h.phase hi hw hm
  rw [exec_room hw hm stays (by rw [pixel]; exact h.room (stored ▸ hl)), pixel] at run
  have hcache : (if writesCache (select px e) then (r.cacheWrite px).cache else r.cache) = (e.cacheWrite px).cache := by
    rw [← cache_after_select px e, State.cacheWrite_cache, h.cache, State.cacheWrite_cache]
  refine ⟨_, run, h.phase, h.input, h.store, ?_, rfl, hcache, ?_, ?_, ?_, .inl (cacheRead_cacheWrite_self _ px)⟩
  · simp only [afterChunk, h.pos, State.cacheWrite_outb, State.setPrev_outb, State.emit_outb, List.length_append,
      encode_length]
  · simp [afterChunk, stored, h0]
  · show zcAfter r.zc (select px e) ≤ 1
    unfold zcAfter
    split
    · next hc => rw [h.zc_eq_zero_of_select hne hc]
    · exact Nat.zero_le 1
  · intro hz
    have hc : select px e = .index 0 := by
      by_contra hc
      have reset : zcAfter r.zc (select px e) = 0 := if_neg hc
      exact hz.ne' reset
    obtain ⟨hk, -⟩ := select_eq_index hc
    show px = State.cacheRead (afterChunk _ _ _ r) 0
    rw [cacheRead_congr (s := e.cacheWrite px) hcache, ← hk, cacheRead_cacheWrite_self]

/-- The decoder keeps up with one pixel step of the encoder. -/
theorem pixel (h : CaughtUp stream size ps e r) (hl : ps.length < size) (hs : size < 2 ^ 64)
    (ho : (afterPixel px e).outb <+: stream) :
    ∃ m r', steps m r = .next r' ∧ CaughtUp stream size (ps ++ [px]) (afterPixel px e) r' := by
  unfold afterPixel at ho ⊢
  split at ho
  · next hp =>
    subst hp
    rw [if_pos rfl]
    exact ⟨0, r, rfl, h.extend_run hl hs⟩
  · next hne =>
    rw [if_neg hne]
    have h' : CaughtUp stream size ps e.nextPixel r := h.congr rfl rfl rfl rfl rfl
    have flushed_out : (flushed e.nextPixel).outb <+: stream := List.IsPrefix.trans ⟨_, rfl⟩ ho
    obtain ⟨m, r₁, hm, h₁⟩ := h'.flush hl.le flushed_out
    obtain ⟨r₂, h₂, h₃⟩ := h₁.read_selected (flushed_run _) hl (by rwa [flushed_prev]) ho
    exact ⟨m + 1, r₂, by rw [steps_add hm, steps_succ h₂]; rfl, h₃⟩

end CaughtUp

/-! ### The encoder's run -/

/-- The encoder of the image `px` before its pixel `i`, or at its finish. -/
structure EncodingAt (w h : BitVec 32) (px : List Color) (i : Nat) (e : State) : Prop where
  wIn : e.wIn = w
  hIn : e.hIn = h
  pixIn : e.pixIn = px
  idx : e.idx = i
  phase : e.phase = if i = pixelCount w h then .encFinish else .encPixels

section
variable {w h : BitVec 32} {px : List Color}

theorem afterPixel_frame (p : Color) (e : State) :
    (afterPixel p e).pixIn = e.pixIn ∧ (afterPixel p e).idx = e.idx + 1 ∧ (afterPixel p e).phase = e.phase ∧
      e.outb <+: (afterPixel p e).outb := by
  unfold afterPixel
  split <;> simp [emitted]

/-- A pixel step reads pixel `i`, and what it emits follows what was there. -/
theorem EncodingAt.step {i : Nat} {e : State} (he : EncodingAt w h px i e) (hl : px.length = pixelCount w h)
    (hi : i < px.length) : Machine.step e = .next (endPixel (afterPixel px[i] e)) ∧
      EncodingAt w h px (i + 1) (endPixel (afterPixel px[i] e)) := by
  have hp : e.phase = .encPixels := by rw [he.phase, if_neg (by omega)]
  have hx : e.pixIn[e.idx]? = some px[i] := by rw [he.pixIn, he.idx, List.getElem?_eq_getElem hi]
  obtain ⟨hw, hh⟩ := afterPixel_operands (s := e) px[i]
  obtain ⟨hpx, hidx, hph, -⟩ := afterPixel_frame px[i] e
  refine ⟨by rw [step_encPixels hp, encPixelStep_some hx], ?_⟩
  rw [endPixel_eq]
  refine ⟨hw.trans he.wIn, hh.trans he.hIn, hpx.trans he.pixIn, hidx.trans (by rw [he.idx]), ?_⟩
  simp only [hw, hh, hidx, hph, he.wIn, he.hIn, he.idx, hp]

/-- The encoder goes on from any pixel to its end, with the bytes it has emitted kept (R222). -/
theorem EncodingAt.finishes (hl : px.length = pixelCount w h) {n : Nat} : ∀ {i : Nat} {e : State}, i + n = px.length →
    EncodingAt w h px i e → ∃ f, steps (n + 1) e = .next f ∧ e.outb <+: f.outb := by
  induction n with
  | zero =>
    intro i e hi he
    have hp : e.phase = .encFinish := by rw [he.phase, if_pos (by omega)]
    have last : Machine.step e = .next (((flushed e).emit endMarker).setPhase .done) := by
      rw [step_encFinish hp, encFinishStep_eq]
    exact ⟨_, steps_succ last 0, by simp⟩
  | succ n ih =>
    intro i e hi he
    obtain ⟨next, he'⟩ := he.step hl (by omega)
    obtain ⟨f, hf, ho⟩ := ih (by omega) he'
    obtain ⟨-, -, -, grows⟩ := afterPixel_frame (px[i]'(by omega)) e
    rw [endPixel_eq] at ho
    exact ⟨f, (steps_succ next _).trans hf, grows.trans ho⟩

/-! ### The start of the two runs -/

/-- The encoder after its header step. -/
def encoderStart (w h : BitVec 32) (px : List Color) (s : State) : State :=
  (serializeHeader (encodeStarted w h px s)).setPhase (if 0 < pixelCount w h then .encPixels else .encFinish)

/-- The decoder of `stream` after its header step. -/
def decoderStart (stream : List Byte) (d : State) : State :=
  { startDecode stream d with hdr := headerRead (startDecode stream d), pos := 14, phase := .decChunks }

theorem steps_encoderStart {s : State} (hw : Waiting s) (hh : s.host = [.encode w h px])
    (hl : px.length = pixelCount w h) : steps 2 s = .next (encoderStart w h px { s with host := [] }) := by
  have start : step s = .next (encodeStarted w h px { s with host := [] }) :=
    (step_command hw hh).trans (startEncode_ok hl _)
  rw [steps_succ start, steps_succ (step_encHeader rfl)]
  rfl

theorem encodingAt_encoderStart (s : State) : EncodingAt w h px 0 (encoderStart w h px s) := by
  refine ⟨rfl, rfl, rfl, rfl, ?_⟩
  show (if 0 < pixelCount w h then Phase.encPixels else .encFinish) = _
  split
  · rw [if_neg (by omega)]
  · rw [if_pos (by omega)]

theorem steps_decoderStart {d : State} {stream : List Byte} (hw : Waiting d) {hdr : Header}
    (hq : hdr.magic = Magic.qoif) (hs : headerBytes hdr <+: stream) :
    steps 2 { d with host := [.decode stream] } = .next (decoderStart stream { d with host := [] }) := by
  obtain ⟨rest, hs⟩ := hs
  have start : step { d with host := [.decode stream] } = .next (startDecode stream { d with host := [] }) :=
    step_command (s := { d with host := [.decode stream] }) hw rfl
  have read : headerRead (startDecode stream { d with host := [] }) = hdr := headerRead_of_headerBytes hs.symm
  have whole : 14 ≤ (startDecode stream { d with host := [] }).inputLen := by
    show 14 ≤ stream.length
    rw [← hs, List.length_append, headerBytes_length]
    omega
  have magic : (startDecode stream { d with host := [] }).magicRead = Magic.qoif :=
    (congrArg Header.magic read).trans hq
  rw [steps_succ start, steps_succ (step_decHeader_parsed rfl whole magic)]
  rfl

/-- After the two headers nothing has been read and nothing is pending, and PREV and the cache are the seeds. -/
theorem caughtUp_start {s d : State} {stream : List Byte} {size : Nat}
    (hc : ∀ cap, d.cfg.pixelStoreCapacity = some cap → size ≤ cap) :
    CaughtUp stream size [] (encoderStart w h px s) (decoderStart stream d) :=
  ⟨rfl, rfl, hc, rfl, rfl, rfl, rfl, Nat.zero_le 1, nofun, .inr ⟨rfl, rfl⟩⟩

/-! ### The two runs in lockstep -/

/-- For every number of pixels the encoder has taken, the decoder of the whole stream has a step at which it has
caught up. -/
theorem lockstep {e₀ r₀ f : State} (hl : px.length = pixelCount w h) (hs : px.length < 2 ^ 64)
    (he₀ : EncodingAt w h px 0 e₀) (hf : steps (px.length + 1) e₀ = .next f)
    (h₀ : CaughtUp f.outb px.length [] e₀ r₀) {i : Nat} (hi : i ≤ px.length) :
    ∃ e m r, steps i e₀ = .next e ∧ EncodingAt w h px i e ∧ steps m r₀ = .next r ∧
      CaughtUp f.outb px.length (px.take i) e r := by
  induction i with
  | zero => exact ⟨e₀, 0, r₀, rfl, he₀, rfl, h₀⟩
  | succ i ih =>
    obtain ⟨e, m, r, he, hat, hm, hr⟩ := ih (by omega)
    obtain ⟨next, hat'⟩ := hat.step hl hi
    have he' : steps (i + 1) e₀ = .next (endPixel (afterPixel px[i] e)) := by
      rw [steps_add he, steps_succ next]
      rfl
    have emittedSoFar : (afterPixel px[i] e).outb <+: f.outb := by
      obtain ⟨f', hf', ho⟩ := hat'.finishes hl (Nat.add_sub_cancel' hi)
      rw [← steps_add he', show i + 1 + (px.length - (i + 1) + 1) = px.length + 1 by omega, hf] at hf'
      cases hf'
      rwa [endPixel_eq] at ho
    obtain ⟨k, r', hk, hr'⟩ := hr.pixel (by rw [List.length_take]; omega) hs emittedSoFar
    refine ⟨_, m + k, r', he', hat', (steps_add hm k).trans hk, ?_⟩
    rw [endPixel_eq, List.take_succ_eq_append_getElem hi]
    exact hr'.congr rfl rfl rfl rfl rfl

end

theorem pixelCount_lt (w h : BitVec 32) : pixelCount w h < 2 ^ 64 := BitVec.toNat_mul_toNat_lt

end Sys2Proof.Machine

open Sys2Proof Sys2Proof.Machine

/-- Settles O58: the two headers lead to states that `CaughtUp` relates, and the decoder keeps up with every pixel
step of the encoder. -/
theorem encoderAndDecoderAgree : Obligations.EncoderAndDecoderAgree := by
  intro w h px s d hw hh hl hd hcap
  have atStart := encodingAt_encoderStart (w := w) (h := h) (px := px) { s with host := [] }
  obtain ⟨f, hf, ho⟩ := atStart.finishes hl (Nat.zero_add _)
  have encoder := steps_add (steps_encoderStart hw hh hl)
  have decoder := steps_add (steps_decoderStart (hdr := encodeHeader w h) hd rfl ho)
  have start : CaughtUp f.outb px.length [] (encoderStart w h px { s with host := [] })
      (decoderStart f.outb { d with host := [] }) := caughtUp_start fun cap hc => by
    have := hcap cap hc
    omega
  refine ⟨f, by rw [← hl, ← hf, ← encoder, Nat.add_comm 2], fun i hi => ?_⟩
  rw [← hl] at hi
  obtain ⟨e, m, r, he, -, hm, hr⟩ := lockstep hl (hl ▸ pixelCount_lt w h) atStart hf start hi
  have taken : (px.take i).length = i := List.length_take_of_le hi
  have pending := hr.length_eq
  have produced := hr.outpix_eq
  rw [taken] at pending produced
  rw [List.take_take, Nat.min_eq_left (Nat.sub_le _ _)] at produced
  exact ⟨e, 2 + m, r, by rw [Nat.add_comm, encoder, he], by rw [decoder, hm], hr.phase, hr.pos, hr.prev,
    fun k => cacheRead_congr hr.cache k, by omega, produced⟩

end

section
/-! The decode driver (43_decode_driver.md R180 to R190): which chunk ends the loop, what the finish step does, and
that a decode which gets as far as the count check reads nothing past its end marker. -/

namespace Sys2Proof.Machine

section
variable {s : State}

/-! ### The chunk at POS -/

/-- Where a chunk can be parsed at POS, the step runs it (R182). -/
theorem step_of_fetchOk {c : Instr} (hp : s.phase = .decChunks) (hf : FetchOk s c) : step s = exec c s := by
  rw [step_decChunks hp, decChunkStep, fetchChunk, hf]

/-- The chunk at POS is Index(1) exactly when the byte there is `01` (R77). -/
theorem fetchOk_index_one_iff : FetchOk s (.index 1) ↔ s.pos < s.inputLen ∧ s.byteAt s.pos = 0x01 := by
  refine ⟨fun hf => ?_, fun ⟨hl, hb⟩ => ?_⟩
  · have hl : s.pos < s.inputLen := hf.spec.2.2.2
    have bytes : [0x01] = (s.input.drop s.pos).take 1 := encode_of_parseOne_ok hf
    rw [List.drop_eq_getElem_cons hl] at bytes
    rw [State.byteAt, List.getD_eq_getElem _ _ hl]
    exact ⟨hl, (List.cons.inj bytes).1.symm⟩
  · rw [State.byteAt, List.getD_eq_getElem _ _ hl] at hb
    rw [FetchOk, List.drop_eq_getElem_cons hl, hb]
    exact parseOne_index (by decide) _

/-- Index(1) after seven Index(0) ends the loop (R184). -/
theorem step_endLoop (hp : s.phase = .decChunks) (hf : FetchOk s (.index 1)) (hz : 7 ≤ s.zc) :
    step s = .next { s with pos := s.pos + 1, phase := .decFinish } :=
  (step_of_fetchOk hp hf).trans (exec_endsLoop (by simpa [endsLoop] using hz))

/-- A step that leads from the chunks to the finish has read an Index(1) after seven Index(0). -/
theorem endLoop_of_step {t : State} (hp : s.phase = .decChunks) (h : step s = .next t) (ht : t.phase = .decFinish) :
    FetchOk s (.index 1) ∧ 7 ≤ s.zc := by
  cases step_next h with
  | endLoop _ hf hz => exact ⟨hf, hz⟩
  | chunk => exact absurd (hp.symm.trans ht) nofun
  | parseError | storeFull => cases ht
  | wait | startDecode | startEncode => simp_all [Waiting]
  | header hq | headerError hq | countError hq | decodeDone hq | encHeader hq | runPixel hq | emitPixel hq
  | encodeDone hq => exact absurd (hp.symm.trans hq) nofun

/-! ### The finish step -/

/-- The 64-bit product of two 32-bit numbers is exact (R187). -/
theorem setWidth_mul_setWidth_toNat (w h : BitVec 32) :
    (w.setWidth 64 * h.setWidth 64).toNat = pixelCount w h := by
  have exact64 (x : BitVec 32) : (x.setWidth 64).toNat = x.toNat := BitVec.toNat_setWidth_of_le (by decide)
  rw [BitVec.toNat_mul, exact64, exact64]
  exact Nat.mod_eq_of_lt (pixelCount_lt w h)

/-- More pixels than the header promises, after the trim, fail the finish step (R187). -/
theorem step_decFinish_tooMany (hp : s.phase = .decFinish)
    (h : pixelCount s.hdr.width s.hdr.height < (trimPhantoms s).outpix.length) :
    step s = .next ((trimPhantoms s).enterError
      (.tooMany (trimPhantoms s).outpix.length (pixelCount s.hdr.width s.hdr.height))) := by
  have check : checkCount (trimPhantoms s) = .raised _ _ := if_pos h
  rw [step_decFinish hp, decFinishStep, check]
  rfl

/-- Fewer pixels than the header promises, after the trim, fail the finish step (R187). -/
theorem step_decFinish_tooFew (hp : s.phase = .decFinish)
    (h : (trimPhantoms s).outpix.length < pixelCount s.hdr.width s.hdr.height) :
    step s = .next ((trimPhantoms s).enterError
      (.tooFew (trimPhantoms s).outpix.length (pixelCount s.hdr.width s.hdr.height))) := by
  have check : checkCount (trimPhantoms s) = .raised _ _ := (if_neg h.le.not_gt).trans (if_pos h)
  rw [step_decFinish hp, decFinishStep, check]
  rfl

/-- With as many pixels as the header promises, after the trim, the decode is done (R188). -/
theorem step_decFinish_done (hp : s.phase = .decFinish)
    (h : (trimPhantoms s).outpix.length = pixelCount s.hdr.width s.hdr.height) :
    step s = .next ((trimPhantoms s).setPhase .done) := by
  have check : checkCount (trimPhantoms s) = .ok _ := (if_neg h.le.not_gt).trans (if_neg h.ge.not_gt)
  rw [step_decFinish hp, decFinishStep, check]
  rfl

/-- The row-major index of a place inside an image lies inside its pixels (R188). -/
theorem rowMajor_lt {x y w h : Nat} (hx : x < w) (hy : y < h) : x + y * w < w * h :=
  calc x + y * w < w + y * w := Nat.add_lt_add_right hx _
    _ = w * (y + 1) := by ring
    _ ≤ w * h := Nat.mul_le_mul_left w hy

/-- A run that goes on for one step and more begins with a step that does. -/
theorem exists_step_of_steps_succ {t : State} {n : Nat} (h : steps (n + 1) s = .next t) :
    ∃ u, step s = .next u ∧ steps n u = .next t := by
  rw [steps] at h
  split at h
  · next u hu => exact ⟨u, hu, h⟩
  · cases h
  · cases h

/-! ### More bytes behind the stream -/

/-- The same core with `extra` behind its stream. -/
def State.appendInput (s : State) (extra : List Byte) : State := { s with input := s.input ++ extra }

theorem byteAt_appendInput {a : Nat} (h : a < s.inputLen) (extra : List Byte) :
    (s.appendInput extra).byteAt a = s.byteAt a := List.getD_append _ _ _ _ h

theorem inputLen_le_appendInput (s : State) (extra : List Byte) : s.inputLen ≤ (s.appendInput extra).inputLen := by
  simp [State.inputLen, State.appendInput]

/-- A whole header is read as before. -/
theorem headerRead_appendInput (h : 14 ≤ s.inputLen) (extra : List Byte) :
    headerRead (s.appendInput extra) = headerRead s := by
  have readAt (a : Nat) (ha : a < 14) : (s.appendInput extra).byteAt a = s.byteAt a :=
    byteAt_appendInput (by omega) extra
  simp [headerRead, State.magicRead, State.wordAt, readAt]

/-- A chunk that could be parsed is parsed as before: its bytes are the same, and PARSE_ONE reads no others. -/
theorem FetchOk.appendInput {c : Instr} (hf : FetchOk s c) (extra : List Byte) :
    FetchOk (s.appendInput extra) c := by
  obtain ⟨hw, hm, -, hl⟩ := hf.spec
  have bytes : s.input.drop s.pos = encode c ++ (s.input.drop s.pos).drop c.lengthBytes := by
    rw [encode_of_parseOne_ok hf, List.take_append_drop]
  have longer : (s.input ++ extra).drop s.pos = s.input.drop s.pos ++ extra :=
    List.drop_append_of_le_length (by simp only [State.inputLen] at hl; omega)
  show parseOne ((s.input ++ extra).drop s.pos) = _
  rw [longer, bytes, List.append_assoc]
  exact parseOne_encode_append hw hm _

/-- The finish step reads nothing of the stream. -/
theorem step_decFinish_appendInput {t : State} (hp : s.phase = .decFinish) (h : step s = .next t)
    (extra : List Byte) : step (s.appendInput extra) = .next (t.appendInput extra) := by
  have both : SameBut (s.appendInput extra) (step s) (step (s.appendInput extra)) := by
    rw [step_decFinish hp, step_decFinish (s := s.appendInput extra) hp]
    exact decFinishStep_withOperandsOf (s := s) (o := s.appendInput extra) rfl
  have kept : t = t.withOperandsOf s := step_keepsOperands (by simp [Busy, Waiting, hp]) (by simp [hp]) h
  rw [h] at both
  generalize step (s.appendInput extra) = x at both
  cases both with
  | next e => rw [e, kept]; rfl

end

/-! ### A decode that gets as far as the count check -/

/-- A DECODE of `input` that no command follows: it runs, or has ended. -/
structure DecodeOnly (input : List Byte) (s : State) : Prop where
  input : s.input = input
  host : s.host = []
  pipeline : ¬ Encoding s

/-- The operation has not failed, or only at the count check (R187). -/
def FailedAtCountOnly (s : State) : Prop :=
  s.phase = .failed → ∃ m k, s.status = .error (.tooMany m k) ∨ s.status = .error (.tooFew m k)

theorem FailedAtCountOnly.error {s : State} {e : Error} (h : FailedAtCountOnly (s.enterError e)) :
    ∃ m k, e = .tooMany m k ∨ e = .tooFew m k := by
  simpa using h rfl

section
variable {input : List Byte} {s t : State}

/-- Every step of a lone decode keeps its stream, takes no command and stays out of the encoder. -/
theorem DecodeOnly.of_step (hd : DecodeOnly input s) (h : step s = .next t) : DecodeOnly input t := by
  obtain ⟨hi, hh, he⟩ := hd
  cases step_next h with
  | wait => exact ⟨hi, hh, he⟩
  | header | headerError | parseError | endLoop | storeFull | countError | decodeDone =>
    exact ⟨hi, hh, by simp [Encoding]⟩
  | chunk => exact ⟨hi, hh, he⟩
  | startDecode _ hc | startEncode _ hc => exact absurd (hh.symm.trans hc) nofun
  | encHeader hp => exact absurd (.inl hp) he
  | runPixel hp | emitPixel hp => exact absurd (.inr (.inl hp)) he
  | encodeDone hp => exact absurd (.inr (.inr hp)) he

/-- A step that raises no error of the parse or of the store does the same with more bytes behind the stream. -/
theorem DecodeOnly.step_appendInput (hd : DecodeOnly input s) (h : step s = .next t)
    (ht : FailedAtCountOnly t) (extra : List Byte) :
    step (s.appendInput extra) = .next (t.appendInput extra) := by
  obtain ⟨-, hh, he⟩ := hd
  cases step_next h with
  | wait hw =>
    have waits : (s.appendInput extra).host = [] := hh
    rw [step_waiting (s := s.appendInput extra) hw, waitStep, waits]
  | header hp hl hm =>
    have hl' := hl.trans (inputLen_le_appendInput s extra)
    have read := headerRead_appendInput hl extra
    have hm' : (s.appendInput extra).magicRead = Magic.qoif := (congrArg Header.magic read).trans hm
    rw [step_decHeader_parsed (s := s.appendInput extra) hp hl' hm', read]
    rfl
  | endLoop hp hf hz => exact step_endLoop (s := s.appendInput extra) hp (hf.appendInput extra) hz
  | @chunk c hp hf hz hr =>
    obtain ⟨hw, hm, -⟩ := hf.spec
    have pixels : applied c (s.appendInput extra) = applied c s := applied_congr rfl rfl c
    rw [step_of_fetchOk (s := s.appendInput extra) hp (hf.appendInput extra),
      exec_room (s := s.appendInput extra) hw hm hz (by rw [pixels]; exact hr), pixels]
    rfl
  | countError hp | decodeDone hp => exact step_decFinish_appendInput hp h extra
  | headerError _ _ hx =>
    obtain ⟨f, rfl⟩ | rfl := hx <;> simpa using ht.error
  | @parseError pe => cases pe <;> simpa [parseErrorAt] using ht.error
  | storeFull => simpa using ht.error
  | startDecode _ hc | startEncode _ hc => exact absurd (hh.symm.trans hc) nofun
  | encHeader hp => exact absurd (.inl hp) he
  | runPixel hp | emitPixel hp => exact absurd (.inr (.inl hp)) he
  | encodeDone hp => exact absurd (.inr (.inr hp)) he

/-- A failed decode stays as it is, so a run that ends well has passed through no state that failed otherwise. -/
theorem DecodeOnly.failedAtCountOnly_of_steps (hd : DecodeOnly input s) {n : Nat} (h : steps n s = .next t)
    (ht : FailedAtCountOnly t) : FailedAtCountOnly s := by
  intro hp
  rw [steps_wait (.inr (.inr hp)) hd.host] at h
  cases h
  exact ht hp

/-- A run that raises no error of the parse or of the store is, with more bytes behind the stream, the same run. -/
theorem DecodeOnly.steps_appendInput {n : Nat} (extra : List Byte) : ∀ {s : State}, DecodeOnly input s →
    steps n s = .next t → FailedAtCountOnly t →
    steps n (s.appendInput extra) = .next (t.appendInput extra) ∧ t.input = input := by
  induction n with
  | zero =>
    intro s hd h ht
    cases h
    exact ⟨rfl, hd.input⟩
  | succ n ih =>
    intro s hd h ht
    obtain ⟨u, hs, h⟩ := exists_step_of_steps_succ h
    have hu := hd.of_step hs
    rw [steps_succ (hd.step_appendInput hs (hu.failedAtCountOnly_of_steps h ht) extra)]
    exact ih hu h ht

end

end Sys2Proof.Machine

open Sys2Proof Sys2Proof.Machine

/-- Settles O3: the start sets the registers, and leaves TRANS in every slot. -/
theorem decodeStartInitialises : Obligations.DecodeStartInitialises :=
  fun _ input _ hw hh =>
    ⟨_, step_command hw hh, rfl, cacheRead_startDecode input _, rfl, rfl, rfl, rfl, rfl, rfl⟩

/-- Settles O35: the terminating Index(1) is consumed and nothing else; any other chunk is expanded, and ZC after it
is `zcAfter`. -/
theorem zeroCounterRule : Obligations.ZeroCounterRule := by
  intro c s hw hm hr
  by_cases ends : c = .index 1 ∧ 7 ≤ s.zc
  · obtain ⟨rfl, hz⟩ := ends
    exact ⟨_, exec_endsLoop (by simpa [endsLoop] using hz), nofun, fun _ _ => ⟨rfl, rfl, rfl⟩,
      fun _ stays => absurd ⟨hz, rfl⟩ stays⟩
  · exact ⟨_, exec_room hw hm (endsLoop_eq_false ends) hr, fun h0 => ⟨if_pos h0, rfl⟩,
      fun _ ⟨hz, h1⟩ => absurd ⟨h1, hz⟩ ends, fun h0 _ => ⟨rfl, if_neg h0, rfl⟩⟩

/-- Settles O36: the byte `01` is the chunk Index(1), and no other step from the chunks leads to the finish. -/
theorem loopEndsOnlyAtTheMarker : Obligations.LoopEndsOnlyAtTheMarker := by
  intro s hp
  have ends (hz : 7 ≤ s.zc) (hl : s.pos < s.inputLen) (hb : s.byteAt s.pos = 0x01) :=
    step_endLoop hp (fetchOk_index_one_iff.mpr ⟨hl, hb⟩) hz
  refine ⟨⟨fun ⟨t, h, ht⟩ => ?_, fun ⟨hz, hl, hb⟩ => ⟨_, ends hz hl hb, rfl⟩⟩, ends⟩
  obtain ⟨hf, hz⟩ := endLoop_of_step hp h ht
  exact ⟨hz, fetchOk_index_one_iff.mp hf⟩

/-- Settles O37: the finish step, by the order of the trimmed count and the exact product. -/
theorem finishTrimsAndChecksTheCount : Obligations.FinishTrimsAndChecksTheCount := by
  intro s hp _
  dsimp only
  rw [setWidth_mul_setWidth_toNat]
  exact ⟨rfl, step_decFinish_tooMany hp, step_decFinish_tooFew hp, step_decFinish_done hp⟩

/-- Settles O38: only a count that matches leads to DONE, so every place of the image has its pixel. -/
theorem decodedImageIsRowMajor : Obligations.DecodedImageIsRowMajor := by
  intro s t hp h ht
  rcases lt_trichotomy (trimPhantoms s).outpix.length (pixelCount s.hdr.width s.hdr.height) with few | hn | many
  · rw [step_decFinish_tooFew hp few] at h
    cases h
    cases ht
  · rw [step_decFinish_done hp hn] at h
    cases h
    refine ⟨rfl, rfl, hn, rfl, fun hh n => steps_wait (.inr (.inl rfl)) hh n, fun x y hx hy => ?_⟩
    have inside := (rowMajor_lt hx hy).trans_eq hn.symm
    exact ⟨inside, (if_pos ⟨hx, hy⟩).trans (List.getElem?_eq_getElem inside)⟩
  · rw [step_decFinish_tooMany hp many] at h
    cases h
    cases ht

/-- Settles O40: the two decodes start alike but for IN, and every step of the first is a step of the second. -/
theorem trailingBytesAreIgnored : Obligations.TrailingBytesAreIgnored := by
  intro s t input extra n hw h ht
  have start (bs : List Byte) : step { s with host := [.decode bs] } = .next (startDecode bs { s with host := [] }) :=
    step_command (s := { s with host := [.decode bs] }) hw rfl
  have only : DecodeOnly input (startDecode input { s with host := [] }) :=
    ⟨rfl, rfl, by simp [startDecode, Encoding]⟩
  have countOnly : FailedAtCountOnly t := fun hf => by simpa [hf] using ht
  rw [steps_succ (start input)] at h
  obtain ⟨run, rfl⟩ := only.steps_appendInput extra h countOnly
  exact (steps_succ (start (t.input ++ extra)) n).trans run

end

section

/-! The encode driver (44_encode_driver.md R210 to R224): what its start and each of its steps do, from the laws of
the encoder's operations, and the bytes of a flush in closed form. -/

namespace Sys2Proof.Machine

/-! ### The bytes of a flush (R214) -/

/-- A pending run of less than 62 pixels is one Run chunk. -/
theorem runChunks_of_lt {run : Nat} (h0 : 0 < run) (h : run < 62) (fuel : Nat) :
    runChunks (fuel + 1) run = [.run (BitVec.ofNat 6 (run - 1))] := by
  rw [runChunks, if_neg h0.ne', Nat.min_eq_left h.le, Nat.sub_self, runChunks_zero]

/-- A pending run of 62 pixels or more begins with a full Run chunk. -/
theorem runChunks_of_ge {run : Nat} (h : 62 ≤ run) (fuel : Nat) :
    runChunks (fuel + 1) run = .run 61 :: runChunks fuel (run - 62) := by
  rw [runChunks, if_neg (by omega), Nat.min_eq_right h]
  rfl

/-- The byte of a Run chunk, as the rule writes it: `C0` or-ed with the field (R133). -/
theorem encode_run_ofNat {n : Nat} (h : n < 64) :
    encode (.run (BitVec.ofNat 6 n)) = [0xC0 ||| BitVec.ofNat 8 n] := by
  have field : (BitVec.ofNat 6 n).setWidth 8 = BitVec.ofNat 8 n := BitVec.setWidth_ofNat_of_le_of_lt (by decide) h
  rw [encode, tag_eq_or, field]
  rfl

/-- The bytes after the full Run chunks of a flush: the Run chunk of the rest `m`, if any. -/
def restBytes (m : Nat) : List Byte := if m = 0 then [] else [0xC0 ||| BitVec.ofNat 8 (m - 1)]

theorem runChunks_bytes {fuel : Nat} : ∀ {run : Nat}, run ≤ fuel →
    (runChunks fuel run).flatMap encode = List.replicate (run / 62) 0xFD ++ restBytes (run % 62) := by
  induction fuel with
  | zero =>
    intro run h
    rw [Nat.le_zero.mp h]
    rfl
  | succ fuel ih =>
    intro run h
    rcases Nat.lt_or_ge run 62 with short | full
    · rw [Nat.div_eq_of_lt short, Nat.mod_eq_of_lt short]
      rcases Nat.eq_zero_or_pos run with rfl | pending
      · rfl
      · rw [runChunks_of_lt pending short, restBytes, if_neg pending.ne', List.flatMap_singleton,
          encode_run_ofNat (by omega)]
        rfl
    · rw [runChunks_of_ge full, List.flatMap_cons, ih (by omega), ← Nat.mod_eq_sub_mod full,
        Nat.div_eq_sub_div (by decide) full, List.replicate_succ]
      rfl

theorem flushBytes_eq (n : Nat) : flushBytes n = List.replicate (n / 62) 0xFD ++ restBytes (n % 62) :=
  runChunks_bytes le_rfl

/-! ### No step of the encoder stops or fails -/

section
variable {s : State}

/-- The pixel step: IDX moves by 1 whatever the pixel, and says whether it was the last (R212). -/
theorem step_encPixels_some {px : Color} (hp : s.phase = .encPixels) (hx : s.pixIn[s.idx]? = some px) :
    step s = .next ((afterPixel px s).setPhase
      (if s.idx + 1 = pixelCount s.wIn s.hIn then .encFinish else .encPixels)) := by
  obtain ⟨wIn, hIn⟩ := afterPixel_operands (s := s) px
  obtain ⟨-, idx, phase, -⟩ := afterPixel_frame px s
  rw [step_encPixels hp, encPixelStep_some hx, endPixel_eq, State.setPhase, wIn, hIn, idx, phase, hp]

theorem step_encFinish_eq (hp : s.phase = .encFinish) :
    step s = .next (((flushed s).emit endMarker).setPhase .done) := (step_encFinish hp).trans (encFinishStep_eq s)

theorem afterPixel_status (px : Color) (s : State) : (afterPixel px s).status = s.status := by
  unfold afterPixel
  split
  · rfl
  · exact flushed_status s.nextPixel

/-- Under the invariant there is a pixel at IDX (R212). -/
theorem Inv.pixel_at_idx (h : Inv s) (hp : s.phase = .encPixels) : ∃ px, s.pixIn[s.idx]? = some px := by
  obtain ⟨ok, inside⟩ := h.encPixels hp
  exact ⟨_, List.getElem?_eq_getElem (by rw [ok.size]; exact inside)⟩

/-- An encoder step goes on, and leaves STATUS as it was. -/
theorem Inv.encoder_step (h : Inv s) (he : Encoding s) :
    ∃ t, step s = .next t ∧ t.status = s.status ∧ t.phase ≠ .failed := by
  rcases he with hp | hp | hp
  · refine ⟨_, step_encHeader hp, rfl, ?_⟩
    rw [State.setPhase_phase]
    split <;> nofun
  · obtain ⟨px, hx⟩ := h.pixel_at_idx hp
    refine ⟨_, step_encPixels_some hp hx, afterPixel_status px s, ?_⟩
    rw [State.setPhase_phase]
    split <;> nofun
  · exact ⟨_, step_encFinish_eq hp, flushed_status s, nofun⟩
end

end Sys2Proof.Machine

open Sys2Proof Sys2Proof.Machine

/-- Settles O4: the start accepts a matching pixel count and leaves TRANS in every slot; any other it refuses. -/
theorem encodeStartInitialisesOrIsRefused : Obligations.EncodeStartInitialisesOrIsRefused := by
  intro s w h px rest hw hh
  refine ⟨fun hl => ?_, fun hl => (step_command hw hh).trans (startEncode_refused hl _)⟩
  exact ⟨_, (step_command hw hh).trans (startEncode_ok hl _), rfl, cacheRead_encodeStarted w h px _,
    rfl, rfl, rfl, rfl, rfl, rfl, rfl, rfl, rfl, rfl⟩

/-- Settles O50: the invariant has STATUS OK before an encoder step, which leaves it; and a command with a wrong
number of pixels has no next state. -/
theorem encodeHasNoFailureMode : Obligations.EncodeHasNoFailureMode := by
  refine ⟨fun s inv he => ?_, fun s w h px rest hw hh => ⟨fun ⟨t, ht, _⟩ => ?_, fun hl => ?_⟩⟩
  · obtain ⟨t, ht, status, notFailed⟩ := inv.encoder_step he
    have ok : s.status = .ok := inv.status.mpr (by rcases he with hp | hp | hp <;> rw [hp] <;> nofun)
    exact ⟨t, ht, status.trans ok, notFailed⟩
  · by_contra hl
    have refused := (step_command hw hh).trans (startEncode_refused hl _)
    exact absurd (ht.symm.trans refused) nofun
  · exact ⟨_, (step_command hw hh).trans (startEncode_ok hl _), rfl, rfl⟩

/-- Settles O51: the state after a flush is `flushed`, and its bytes are those of `runChunks` in closed form. -/
theorem flushSplitsRunsAt62 : Obligations.FlushSplitsRunsAt62 := by
  intro s
  refine ⟨flushed s, flushRun_eq s, ?_, flushed_run s, flushed_fre s, flushed_prev s, flushed_idx s, flushed_phase s,
    flushed_cacheRead s⟩
  rw [flushed_outb, flushBytes_eq, List.append_assoc]
  rfl

/-- Settles O54: the step is `afterPixel`, which extends the run or flushes and emits. -/
theorem pixelStep : Obligations.PixelStep := by
  intro s px hp hx
  have run := step_encPixels_some hp hx
  refine ⟨fun same => ?_, fun differs => ⟨flushed s.nextPixel, flushRun_eq _, ?_⟩⟩
  · rw [run, afterPixel, if_pos same]
    rfl
  · rw [run, afterPixel, if_neg differs]
    rfl

/-- Settles O55: the finish step is the flush, the end marker and the end. -/
theorem encodeFinishStep : Obligations.EncodeFinishStep :=
  fun s hp => ⟨flushed s, flushRun_eq s, step_encFinish_eq hp⟩

end

section

/-! The round trip (44_encode_driver.md R227). When the encoder reaches its finish step the decoder has caught up with
it; the last flush is read like any other, and what follows it in the stream is the end marker. On that the decoder
takes eight chunk steps, then trims the seven phantom pixels and finds the count that the header promises. -/

namespace Sys2Proof.Machine

/-! ### The decoder on the end marker -/

section
variable {r : State} {rest : List Byte}

/-- The decoder after `n` Index(0) chunks, at least one. -/
def afterZeros (n : Nat) (r : State) : State :=
  { r with
    pos := r.pos + n
    zc := r.zc + n
    outpix := r.outpix ++ List.replicate n (r.cacheRead 0)
    prev := r.cacheRead 0 }

/-- Index(0) chunks add up. -/
theorem afterZeros_afterZeros (m n : Nat) (r : State) : afterZeros n (afterZeros m r) = afterZeros (m + n) r := by
  have slot : (afterZeros m r).cacheRead 0 = r.cacheRead 0 := cacheRead_congr rfl 0
  rw [afterZeros, slot]
  simp only [afterZeros, Nat.add_assoc, List.append_assoc, List.replicate_append_replicate]

theorem exec_index_zero (hr : Room r 1) : exec (.index 0) r = .next (afterZeros 1 r) :=
  (indexResult 0 r).1 (fun h => absurd h.1 (by decide)) hr

/-- Zero bytes at POS are read as Index(0) chunks. -/
theorem steps_zeros {n : Nat} : ∀ {r : State}, r.phase = .decChunks →
    r.input.drop r.pos = List.replicate (n + 1) 0 ++ rest → Room r (n + 1) →
    steps (n + 1) r = .next (afterZeros (n + 1) r) := by
  induction n with
  | zero =>
    intro r hp hi hr
    exact steps_succ ((step_at_chunk (c := .index 0) hp hi rfl nofun).trans (exec_index_zero hr)) 0
  | succ n ih =>
    intro r hp hi hr
    have hi : r.input.drop r.pos = encode (.index 0) ++ (List.replicate (n + 1) 0 ++ rest) := hi
    have first : step r = .next (afterZeros 1 r) :=
      (step_at_chunk hp hi rfl nofun).trans (exec_index_zero (hr.mono (by omega)))
    have room : Room (afterZeros 1 r) (n + 1) := by
      intro cap h
      have := hr cap h
      simp only [afterZeros, List.length_append, List.length_replicate]
      omega
    rw [steps_succ first, ih (r := afterZeros 1 r) hp (drop_past_chunk hi) room, afterZeros_afterZeros,
      Nat.add_comm 1]

/-- The decoder after the end marker: seven phantom pixels, and the end of the loop. -/
def afterMarker (r : State) : State := ((afterZeros 7 r).advance 1).setPhase .decFinish

/-- Where the end marker stands at POS, eight steps read it (R184). -/
theorem steps_endMarker (hp : r.phase = .decChunks) (hi : r.input.drop r.pos = endMarker ++ rest) (hr : Room r 7) :
    steps 8 r = .next (afterMarker r) := by
  have hi : r.input.drop r.pos = List.replicate 7 0 ++ (encode (.index 1) ++ rest) := hi
  have zeros : steps 7 r = .next (afterZeros 7 r) := steps_zeros hp hi hr
  have past : (afterZeros 7 r).input.drop (afterZeros 7 r).pos = encode (.index 1) ++ rest := by
    show r.input.drop (r.pos + 7) = _
    rw [← List.drop_drop, hi]
    rfl
  have one : FetchOk (afterZeros 7 r) (.index 1) := by
    rw [FetchOk, past]
    exact parseOne_encode_append (c := .index 1) rfl nofun rest
  rw [steps_add zeros 1, steps_succ (step_endLoop (s := afterZeros 7 r) hp one (Nat.le_add_left 7 r.zc))]
  rfl

/-- The trim removes exactly the phantom pixels of the end marker (R186). -/
theorem trimPhantoms_afterMarker (r : State) : (trimPhantoms (afterMarker r)).outpix = r.outpix := by
  show (r.outpix ++ List.replicate 7 _).take ((r.outpix ++ List.replicate 7 _).length - 7) = _
  rw [List.length_append, List.length_replicate, Nat.add_sub_cancel, List.take_left]

/-- A decoder with the end marker at POS ends with the pixels it holds, if they are as many as its header promises
(R186 to R188). -/
theorem steps_endMarker_done (hp : r.phase = .decChunks) (hi : r.input.drop r.pos = endMarker ++ rest)
    (hr : Room r 7) (hn : r.outpix.length = pixelCount r.hdr.width r.hdr.height) :
    ∃ t, steps 9 r = .next t ∧ observe .decode t = .image r.hdr.width r.hdr.height r.outpix := by
  have done := step_decFinish_done (s := afterMarker r) rfl (by rw [trimPhantoms_afterMarker]; exact hn)
  exact ⟨_, (steps_add (steps_endMarker hp hi hr) 1).trans (steps_succ done 0),
    congrArg (Observation.image r.hdr.width r.hdr.height) (trimPhantoms_afterMarker r)⟩
end

/-! ### What a decode keeps once its header is parsed -/

section
variable {input : List Byte} {s t : State}

theorem DecodeOnly.step_keeps (hd : DecodeOnly input s) (hp : s.phase ≠ .decHeader) (h : step s = .next t) :
    t.phase ≠ .decHeader ∧ t.hdr = s.hdr ∧ t.cfg = s.cfg := by
  obtain ⟨-, hh, he⟩ := hd
  cases step_next h with
  | wait | chunk => exact ⟨hp, rfl, rfl⟩
  | parseError | endLoop | storeFull | countError | decodeDone => exact ⟨nofun, rfl, rfl⟩
  | header hp' | headerError hp' => exact absurd hp' hp
  | startDecode _ hc | startEncode _ hc => exact absurd (hh.symm.trans hc) nofun
  | encHeader hp => exact absurd (.inl hp) he
  | runPixel hp | emitPixel hp => exact absurd (.inr (.inl hp)) he
  | encodeDone hp => exact absurd (.inr (.inr hp)) he

/-- A lone decode past its header parse keeps HDR and the parameter. -/
theorem DecodeOnly.steps_keep {n : Nat} : ∀ {s : State}, DecodeOnly input s → s.phase ≠ .decHeader →
    steps n s = .next t → DecodeOnly input t ∧ t.hdr = s.hdr ∧ t.cfg = s.cfg := by
  induction n with
  | zero =>
    intro s hd _ h
    cases h
    exact ⟨hd, rfl, rfl⟩
  | succ n ih =>
    intro s hd hp h
    obtain ⟨u, hs, h⟩ := exists_step_of_steps_succ h
    obtain ⟨hp', hdr, cfg⟩ := hd.step_keeps hp hs
    obtain ⟨hd', hdr', cfg'⟩ := ih (hd.of_step hs) hp' h
    exact ⟨hd', hdr'.trans hdr, cfg'.trans cfg⟩
end

/-! ### The two runs to their ends -/

section
variable {w h : BitVec 32} {px : List Color} {e r d : State} {hdr : Header} {stream : List Byte} {size : Nat}

theorem observed_of_steps {n : Nat} {s t : State} (op : OpKind) (h : steps n s = .next t) :
    observed op n s = some (observe op t) := by rw [observed, h]

/-- After its last pixel the encoder flushes, writes the end marker and is done (R222). -/
theorem EncodingAt.finish (he : EncodingAt w h px (pixelCount w h) e) :
    Machine.step e = .next (((flushed e).emit endMarker).setPhase .done) :=
  step_encFinish_eq (he.phase.trans (if_pos rfl))

theorem decodeOnly_decoderStart (hh : d.host = []) : DecodeOnly stream (decoderStart stream d) :=
  ⟨rfl, hh, by simp [decoderStart, Encoding]⟩

theorem decoderStart_hdr (hs : headerBytes hdr <+: stream) : (decoderStart stream d).hdr = hdr := by
  obtain ⟨rest, hs⟩ := hs
  exact headerRead_of_headerBytes (s := startDecode stream d) hs.symm

/-- A decoder that has caught up with an encoder at its finish reads the last flush and the end marker, and ends with
the image. -/
theorem CaughtUp.decodes_image (hc : CaughtUp stream size px e r) (hd : DecodeOnly stream r) (hl : px.length ≤ size)
    (ho : (flushed e).outb ++ endMarker <+: stream)
    (hr : ∀ cap, r.cfg.pixelStoreCapacity = some cap → px.length + 7 ≤ cap)
    (hn : px.length = pixelCount r.hdr.width r.hdr.height) :
    ∃ m t, steps m r = .next t ∧ observe .decode t = .image r.hdr.width r.hdr.height px := by
  obtain ⟨m, r', hm, hc'⟩ := hc.flush hl (List.IsPrefix.trans ⟨_, rfl⟩ ho)
  obtain ⟨-, hdr, cfg⟩ := hd.steps_keep (by rw [hc.phase]; nofun) hm
  have stored : r'.outpix = px := by
    rw [hc'.pixels, flushed_run]
    exact (List.append_nil _).symm
  obtain ⟨rest, hi⟩ := hc'.drop_eq ho
  have room : Room r' 7 := fun cap h => by
    rw [stored]
    exact hr cap (cfg ▸ h)
  obtain ⟨t, ht, image⟩ := steps_endMarker_done hc'.phase hi room (by rw [stored, hdr]; exact hn)
  exact ⟨m + 9, t, (steps_add hm 9).trans ht, by rw [image, stored, hdr]⟩
end

end Sys2Proof.Machine

open Sys2Proof Sys2Proof.Machine

/-- Settles O59: the two runs in lockstep lead past the last pixel. There the encoder's finish step writes the last
flush and the end marker, and the decoder, which has caught up, reads them to its end. -/
theorem decodeOfEncodeIsTheImage : Obligations.DecodeOfEncodeIsTheImage := by
  intro w h px s d hw hh hl hd hcap
  replace hl : px.length = pixelCount w h := hl
  have atStart := encodingAt_encoderStart (w := w) (h := h) (px := px) { s with host := [] }
  obtain ⟨f, hf, ho⟩ := atStart.finishes hl (Nat.zero_add _)
  have encoder := steps_add (steps_encoderStart hw hh hl)
  have decoder := steps_add (steps_decoderStart (hdr := encodeHeader w h) hd rfl ho)
  have start : CaughtUp f.outb px.length [] (encoderStart w h px { s with host := [] })
      (decoderStart f.outb { d with host := [] }) := caughtUp_start fun cap hc =>
    hl.trans_le (Nat.le_of_add_right_le (hcap cap hc))
  obtain ⟨e, m, r, he, hat, hm, hr⟩ := lockstep hl (hl ▸ pixelCount_lt w h) atStart hf start le_rfl
  have written : f = ((flushed e).emit endMarker).setPhase .done := by
    have last := steps_succ (EncodingAt.finish (hl ▸ hat)) 0
    rw [← steps_add he, hf] at last
    cases last
    rfl
  have only : DecodeOnly f.outb (decoderStart f.outb { d with host := [] }) := decodeOnly_decoderStart rfl
  obtain ⟨only', hdr, cfg⟩ := only.steps_keep nofun hm
  rw [decoderStart_hdr ho] at hdr
  rw [List.take_length] at hr
  obtain ⟨k, t, ht, image⟩ := hr.decodes_image only' le_rfl (by rw [written]; rfl)
    (fun cap hc => by rw [hl]; exact hcap cap (cfg ▸ hc)) (by rw [hdr]; exact hl)
  refine ⟨f.outb, 2 + (px.length + 1), 2 + (m + k), ?stream, ?image⟩
  case stream =>
    rw [observed_of_steps .encode ((encoder _).trans hf), written]
    rfl
  case image =>
    rw [observed_of_steps .decode ((decoder _).trans ((steps_add hm k).trans ht)), image, hdr]
    rfl

end

section
/-! Errors (60_exceptions.md R240 to R249): what PARSE_ONE can fail with, and what a step can do to STATUS. -/

namespace Sys2Proof

/-- PARSE_ONE fails only for want of bytes: the four prefixes and the two exact tags leave no tag over (R127). -/
theorem parseOne_error_cases {bs : List Byte} {e : ParseError} (h : parseOne bs = .error e) :
    e = .noTag ∨ ∃ need, e = .short need := by
  rcases bs with _ | ⟨t, rest⟩
  · cases h
    exact .inl rfl
  right
  rcases tagPrefix_cases t with hp | hp | hp | hp
  · rw [parseOne_index hp] at h
    cases h
  · rw [parseOne_diff hp] at h
    cases h
  · cases rest with
    | nil =>
      obtain ⟨hFE, hFF⟩ := ne_exactTags_of_tagPrefix_ne (t := t) (by simp [hp])
      simp only [parseOne, parseLuma, hFE, hFF, hp] at h
      cases h
      exact ⟨2, rfl⟩
    | cons b1 rest =>
      rw [parseOne_luma hp] at h
      cases h
  · by_cases hFE : t = 0xFE#8
    · subst hFE
      change parseRgb rest = _ at h
      unfold parseRgb at h
      split at h <;> cases h
      exact ⟨4, rfl⟩
    by_cases hFF : t = 0xFF#8
    · subst hFF
      change parseRgba rest = _ at h
      unfold parseRgba at h
      split at h <;> cases h
      exact ⟨5, rfl⟩
    rw [parseOne_run hFE hFF hp] at h
    cases h

theorem parseOne_ne_invalidTag (bs : List Byte) (t : Byte) : parseOne bs ≠ .error (.invalidTag t) := fun h => by
  rcases parseOne_error_cases h with e | ⟨need, e⟩ <;> cases e

namespace Machine

section
variable {s t : State}

theorem endPixel_status (s : State) : (endPixel s).status = s.status := by rw [endPixel_eq]

/-- The end of a pixel step leads to ENC_FINISH or stays (R212). -/
theorem endPixel_phase_ne_failed (h : s.phase ≠ .failed) : (endPixel s).phase ≠ .failed := by
  unfold endPixel
  split
  · nofun
  · exact h

/-- What a step can do to STATUS. A waiting core keeps it or, where a command starts, sets it to OK; a step of an
operation keeps it, unless it enters an error, which is never InvalidTag (R34, R243, R247). -/
theorem step_status_cases (h : step s = .next t) :
    (Waiting s ∧ (t.status = s.status ∨ t.status = .ok)) ∨
    (t.status = s.status ∧ t.phase ≠ .failed) ∨
    (∃ (u : State) (e : Error), t = u.enterError e ∧ ∀ b, e ≠ .invalidTag b) := by
  have runs {p : Phase} (hp : s.phase = p) (hne : p ≠ .failed) : s.phase ≠ .failed := hp ▸ hne
  cases step_next h with
  | wait hw => exact .inl ⟨hw, .inl rfl⟩
  | startDecode hw | startEncode hw => exact .inl ⟨hw, .inr rfl⟩
  | header | endLoop | decodeDone => exact .inr (.inl ⟨rfl, nofun⟩)
  | chunk hp => exact .inr (.inl ⟨rfl, runs hp nofun⟩)
  | encHeader =>
    refine .inr (.inl ⟨rfl, ?_⟩)
    rw [State.setPhase_phase]
    split <;> nofun
  | runPixel hp => exact .inr (.inl ⟨endPixel_status _, endPixel_phase_ne_failed (runs hp nofun)⟩)
  | @emitPixel px hp =>
    have status : (emitted px s.nextPixel).status = s.status := flushed_status s.nextPixel
    have phase : (emitted px s.nextPixel).phase = s.phase := flushed_phase s.nextPixel
    exact .inr (.inl ⟨(endPixel_status _).trans status, endPixel_phase_ne_failed (phase ▸ runs hp nofun)⟩)
  | encodeDone => exact .inr (.inl ⟨flushed_status s, nofun⟩)
  | headerError _ _ he =>
    refine .inr (.inr ⟨_, _, rfl, ?_⟩)
    rcases he with ⟨f, rfl⟩ | rfl <;> nofun
  | parseError _ he =>
    refine .inr (.inr ⟨_, _, rfl, ?_⟩)
    rcases parseOne_error_cases he with rfl | ⟨need, rfl⟩ <;> nofun
  | storeFull => exact .inr (.inr ⟨_, _, rfl, nofun⟩)
  | countError _ he =>
    refine .inr (.inr ⟨_, _, rfl, ?_⟩)
    rcases he with ⟨m, n, rfl⟩ | ⟨m, n, rfl⟩ <;> nofun

/-- An operation that reaches FAILED has an error in STATUS (R247). -/
theorem Busy.exists_error (hb : Busy s) (h : step s = .next t) (hf : t.phase = .failed) :
    ∃ e, t.status = .error e := by
  rcases step_status_cases h with ⟨hw, -⟩ | ⟨-, hne⟩ | ⟨u, e, rfl, -⟩
  · exact absurd hw hb
  · exact absurd hf hne
  · exact ⟨e, rfl⟩

/-- In FAILED the host observes the error in STATUS and nothing else (R194, R247). -/
theorem observe_failed (h : t.phase = .failed) (op : OpKind) : observe op t = .failed t.status := by
  simp only [observe, h]

/-- The codes above 6 are never written (R246). -/
theorem Status.code_toNat_le (st : Status) : st.code.toNat ≤ 6 := by
  rcases st with _ | e
  · decide
  · cases e <;> simp [Status.code]

end

end Machine

end Sys2Proof

open Sys2Proof Sys2Proof.Machine

/-- Settles O12: no bytes parse to InvalidTag, and a step keeps STATUS, sets it to OK or to another error. -/
theorem invalidTagIsNeverRaised : Obligations.InvalidTagIsNeverRaised := by
  refine ⟨parseOne_ne_invalidTag, fun s u t hs h => ?_⟩
  rcases step_status_cases h with ⟨-, kept | ok⟩ | ⟨kept, -⟩ | ⟨v, e, rfl, hne⟩
  · rwa [kept]
  · rw [ok]
    nofun
  · rwa [kept]
  · exact fun tag => hne t (Status.error.inj tag)

/-- Settles O43: error entry as it is defined; the step of an operation that reaches FAILED has raised an error, and
FAILED waits for the next command. -/
theorem errorEntry : Obligations.ErrorEntry := by
  refine ⟨fun e s => ⟨rfl, fun op => rfl⟩, fun s t hb h hf => ⟨?observed, steps_wait (.inr (.inr hf))⟩,
    rfl, fun _ _ => rfl, fun _ => rfl, fun _ => rfl, fun _ _ => rfl, fun _ _ => rfl, fun _ => rfl,
    Status.code_toNat_le⟩
  case observed =>
    obtain ⟨e, he⟩ := hb.exists_error h hf
    exact ⟨e, he, fun op => he ▸ observe_failed hf op⟩

end

section
/-! The sequencer (10_state.md R33, R34, section 12): what one step does to PHASE and STATUS, and which registers a
step of either pipeline leaves alone. Each is a case analysis over what a step can have done. -/

namespace Sys2Proof.Machine

variable {s t : State}

/-! ### The kinds of phases -/

theorem waiting_or_decoding_or_encoding (s : State) : Waiting s ∨ Decoding s ∨ Encoding s := by
  unfold Waiting Decoding Encoding
  cases s.phase <;> simp

theorem Busy.decoding_or_encoding (hb : Busy s) : Decoding s ∨ Encoding s :=
  (waiting_or_decoding_or_encoding s).resolve_left hb

theorem Decoding.busy (hd : Decoding s) : Busy s := by
  rcases hd with hp | hp | hp <;> simp [Busy, Waiting, hp]

theorem Encoding.not_decoding (he : Encoding s) : ¬ Decoding s := by
  rcases he with hp | hp | hp <;> simp [Decoding, hp]

/-! ### The registers a pipeline leaves alone -/

/-- What no decoder step writes: the encoder's registers, the operands, the host's list and the parameter. -/
structure DecoderKeeps (s t : State) : Prop where
  run : t.run = s.run
  fre : t.fre = s.fre
  idx : t.idx = s.idx
  outb : t.outb = s.outb
  input : t.input = s.input
  wIn : t.wIn = s.wIn
  hIn : t.hIn = s.hIn
  pixIn : t.pixIn = s.pixIn
  host : t.host = s.host
  cfg : t.cfg = s.cfg

theorem Decoding.keeps (hd : Decoding s) (h : step s = .next t) : DecoderKeeps s t := by
  cases step_next h with
  | wait hw | startDecode hw | startEncode hw => exact absurd hw hd.busy
  | encHeader hp => exact absurd hd (Encoding.not_decoding (.inl hp))
  | runPixel hp | emitPixel hp => exact absurd hd (Encoding.not_decoding (.inr (.inl hp)))
  | encodeDone hp => exact absurd hd (Encoding.not_decoding (.inr (.inr hp)))
  | header | headerError | parseError | endLoop | chunk | storeFull | countError | decodeDone => constructor <;> rfl

/-- What no encoder step writes: the decoder's registers, HDR, STATUS, the operands, the host's list and the
parameter. OUTB only grows. -/
structure EncoderKeeps (s t : State) : Prop where
  zc : t.zc = s.zc
  pos : t.pos = s.pos
  hdr : t.hdr = s.hdr
  outpix : t.outpix = s.outpix
  status : t.status = s.status
  input : t.input = s.input
  wIn : t.wIn = s.wIn
  hIn : t.hIn = s.hIn
  pixIn : t.pixIn = s.pixIn
  host : t.host = s.host
  cfg : t.cfg = s.cfg
  outb : s.outb <+: t.outb

theorem EncoderKeeps.setPhase (k : EncoderKeeps s t) (p : Phase) : EncoderKeeps s (t.setPhase p) := { k with }

/-- A pixel step, but for the end of the image (R212 to R221). -/
theorem encoderKeeps_afterPixel (px : Color) (s : State) : EncoderKeeps s (afterPixel px s) := by
  unfold afterPixel
  split <;> constructor <;> simp [emitted]

/-- A pixel step that goes on has read a pixel (R212). -/
theorem afterPixel_of_step (hp : s.phase = .encPixels) (h : step s = .next t) : ∃ px, s.pixIn[s.idx]? = some px ∧
    t = (afterPixel px s).setPhase (if s.idx + 1 = pixelCount s.wIn s.hIn then .encFinish else .encPixels) := by
  cases hx : s.pixIn[s.idx]? with
  | none =>
    rw [step_encPixels hp, encPixelStep_none hx] at h
    cases h
  | some px =>
    rw [step_encPixels_some hp hx] at h
    cases h
    exact ⟨px, rfl, rfl⟩

theorem Encoding.keeps (he : Encoding s) (h : step s = .next t) : EncoderKeeps s t := by
  rcases he with hp | hp | hp
  · rw [step_encHeader hp] at h
    cases h
    constructor <;> simp [serializeHeader]
  · obtain ⟨px, -, rfl⟩ := afterPixel_of_step hp h
    exact (encoderKeeps_afterPixel px s).setPhase _
  · rw [step_encFinish_eq hp] at h
    cases h
    constructor <;> simp

/-! ### PHASE and STATUS -/

theorem step_wait (hw : Waiting s) (hh : s.host = []) : step s = .next s := by rw [step_waiting hw, waitStep, hh]

/-- A command starts, but for an ENCODE with a wrong number of pixels (R180, R210). -/
theorem startCommand_cases (c : Command) (s : State) : (∃ t, startCommand c s = .next t) ∨
    ∃ w h px, c = .encode w h px ∧ px.length ≠ pixelCount w h ∧
      startCommand c s = .refused (.encodeSizeMismatch px.length (pixelCount w h)) := by
  cases c with
  | decode input => exact .inl ⟨_, rfl⟩
  | encode w h px =>
    by_cases hl : px.length = pixelCount w h
    · exact .inl ⟨_, startEncode_ok hl s⟩
    · exact .inr ⟨w, h, px, rfl, hl, startEncode_refused hl s⟩

/-- A waiting core stays as it is, or a command starts (R256, R275). -/
theorem Waiting.step_cases (hw : Waiting s) (h : step s = .next t) :
    (s.host = [] ∧ t = s) ∨
    (s.host ≠ [] ∧ t.status = .ok ∧ (t.phase = .decHeader ∨ t.phase = .encHeader)) := by
  cases step_next h with
  | wait _ hh => exact .inl ⟨hh, rfl⟩
  | startDecode _ hh => exact .inr ⟨hh ▸ nofun, rfl, .inl rfl⟩
  | startEncode _ hh => exact .inr ⟨hh ▸ nofun, rfl, .inr rfl⟩
  | header hp | headerError hp | parseError hp | endLoop hp | chunk hp | storeFull hp | countError hp | decodeDone hp
  | encHeader hp | runPixel hp | emitPixel hp | encodeDone hp => simp [Waiting, hp] at hw

/-- The finish step enters an error from the trimmed state, or is done there (R186 to R188). -/
theorem decFinish_cases (hp : s.phase = .decFinish) :
    (∃ e, step s = .next ((trimPhantoms s).enterError e)) ∨ step s = .next ((trimPhantoms s).setPhase .done) := by
  rcases lt_trichotomy (trimPhantoms s).outpix.length (pixelCount s.hdr.width s.hdr.height) with few | same | many
  · exact .inl ⟨_, step_decFinish_tooFew hp few⟩
  · exact .inr (step_decFinish_done hp same)
  · exact .inl ⟨_, step_decFinish_tooMany hp many⟩

/-- A decoder step never stops: PARSE_ONE gives well-formed chunks only (R182). -/
theorem Decoding.step_goes_on (hd : Decoding s) : ∃ t, step s = .next t := by
  have settles (a : Attempt) : ∃ t, a.settle = .next t := by cases a <;> exact ⟨_, rfl⟩
  rcases hd with hp | hp | hp
  · rw [step_decHeader hp]
    exact settles _
  · rw [step_decChunks hp, decChunkStep, fetchChunk]
    cases hq : parseOne (s.input.drop s.pos) with
    | error e => exact ⟨_, rfl⟩
    | ok r =>
      obtain ⟨hw, hm, -⟩ := parseOne_ok (c := r.1) (n := r.2) hq
      rcases exec_cases r.1 s hm with ⟨ill, -⟩ | ⟨-, e⟩ | ⟨-, e⟩ | ⟨-, n, ix, e⟩
      · exact absurd hw (by simp [ill])
      · exact ⟨_, e⟩
      · exact ⟨_, e⟩
      · exact ⟨_, e⟩
  · rw [step_decFinish hp]
    exact settles _

end Sys2Proof.Machine

open Sys2Proof Sys2Proof.Machine

/-- Settles O45: for each PHASE, what a step from it can have done. -/
theorem phasesFollowTheSequencer : Obligations.PhasesFollowTheSequencer := by
  intro s t h
  have waits (hw : Waiting s) : (s.host = [] ∧ t.phase = s.phase) ∨
      (s.host ≠ [] ∧ (t.phase = .decHeader ∨ t.phase = .encHeader)) :=
    (hw.step_cases h).imp (fun ⟨hh, e⟩ => ⟨hh, congrArg State.phase e⟩) fun ⟨hh, _, hp⟩ => ⟨hh, hp⟩
  cases step_next h with
  | wait hw | startDecode hw | startEncode hw =>
    have moves := waits hw
    rcases hw with hp | hp | hp <;> simpa only [hp] using moves
  | header hp | headerError hp | parseError hp | endLoop hp | storeFull hp | countError hp | decodeDone hp
  | encodeDone hp => simp [hp]
  | chunk hp => simp [hp, afterChunk]
  | encHeader hp =>
    simp only [hp, State.setPhase_phase]
    split
    · exact .inl rfl
    · next none => exact .inr ⟨rfl, Nat.eq_zero_of_not_pos none⟩
  | runPixel hp | emitPixel hp =>
    obtain ⟨px, -, e⟩ := afterPixel_of_step hp h
    simp only [hp, e, State.setPhase_phase]
    split
    · exact .inr rfl
    · exact .inl rfl

/-- Settles O44: an operation changes STATUS only by entering an error, and no encoder step does. -/
theorem statusChangesOnlyAtAFailureOrAStart : Obligations.StatusChangesOnlyAtAFailureOrAStart := by
  intro s t h changed
  by_cases hw : Waiting s
  · rcases hw.step_cases h with ⟨-, rfl⟩ | started
    · exact absurd rfl changed
    · exact .inr ⟨hw, started⟩
  · rcases step_status_cases h with ⟨hw', -⟩ | ⟨kept, -⟩ | ⟨u, e, rfl, -⟩
    · exact absurd hw' hw
    · exact absurd kept changed
    · exact .inl ⟨(Busy.decoding_or_encoding hw).resolve_right fun he => changed (he.keeps h).status, rfl⟩

/-- Settles O10: past the header parse a step keeps HDR. -/
theorem headerIsImmutableDuringAnOperation : Obligations.HeaderIsImmutableDuringAnOperation :=
  fun _ _ hb hp h => (congrArg State.hdr (step_keepsOperands hb hp h) :)

/-- Settles O46: the frames of the two pipelines, register by register. -/
theorem pipelinesKeepToTheirRegisters : Obligations.PipelinesKeepToTheirRegisters := by
  intro s t hb h
  rcases hb.decoding_or_encoding with hd | he
  · have k := hd.keeps h
    exact ⟨k.input, k.wIn, k.hIn, k.pixIn, k.host, k.cfg, k.outb ▸ List.prefix_rfl,
      fun _ => ⟨k.run, k.fre, k.idx, k.outb⟩, fun he => absurd hd he.not_decoding⟩
  · have k := he.keeps h
    exact ⟨k.input, k.wIn, k.hIn, k.pixIn, k.host, k.cfg, k.outb, fun hd => absurd hd he.not_decoding,
      fun _ => ⟨k.zc, k.pos, k.outpix, k.status⟩⟩

/-- Settles O49: a decoder step always goes on, an encoder step does under the invariant, and a waiting core stops
only at an ENCODE with a wrong number of pixels. -/
theorem invariantStatesNeverFault : Obligations.InvariantStatesNeverFault := by
  intro s inv
  have goesOn {x : Host.Outcome State Fault Refusal} {P : Refusal → Prop} (h : ∃ t, x = .next t) :
      (∀ f, x ≠ .fault f) ∧ ∀ r, x = .refused r → P r := by
    obtain ⟨t, rfl⟩ := h
    exact ⟨nofun, nofun⟩
  rcases waiting_or_decoding_or_encoding s with hw | hd | he
  · cases hh : s.host with
    | nil => exact goesOn ⟨s, step_wait hw hh⟩
    | cons c rest =>
      rw [step_command hw hh]
      rcases startCommand_cases c { s with host := rest } with next | ⟨w, ht, px, rfl, hl, refused⟩
      · exact goesOn next
      · rw [refused]
        refine ⟨nofun, fun r hr => ⟨w, ht, px, rest, hw, rfl, hl, ?_⟩⟩
        cases hr
        rfl
  · exact goesOn hd.step_goes_on
  · obtain ⟨t, ht, -⟩ := inv.encoder_step he
    exact goesOn ⟨t, ht⟩

/-- Settles O1: the reset values, and an empty host list. -/
theorem resetIsIdleWithStatusOk : Obligations.ResetIsIdleWithStatusOk :=
  ⟨rfl, rfl, rfl, rfl⟩

/-- Settles O2: the step of a waiting core is `waitStep`, on an empty and on a nonempty list. -/
theorem waitingCoreMovesOnlyByCommands : Obligations.WaitingCoreMovesOnlyByCommands :=
  fun _ hw => ⟨step_wait hw, fun _ _ hh => step_command hw hh⟩

end

section
/-! The invariant of a run (10_state.md section 7, 42_predictor_cache.md section 1, the two drivers). `inv_iff` puts the
six clauses on PHASE into one, so that a step owes only the clause of the phase it leads to. -/

namespace Sys2Proof.Machine

variable {s t : State}

/-! ### The clause of each phase -/

/-- What the invariant says of the phase that the core is in. -/
def PhaseOk (s : State) : Prop :=
  match s.phase with
  | .decHeader => s.pos = 0 ∧ s.zc = 0 ∧ s.outpix = [] ∧ s.prev = Color.black
  | .decChunks => DecodeOk s
  | .decFinish => FinishOk s
  | .encHeader => EncodeOk s ∧ s.idx = 0 ∧ s.outb = []
  | .encPixels => EncodeOk s ∧ s.idx < pixelCount s.wIn s.hIn
  | .encFinish => EncodeOk s ∧ s.idx = pixelCount s.wIn s.hIn
  | .idle | .done | .failed => True

theorem phaseOk_of_waiting (hw : Waiting s) : PhaseOk s := by
  rcases hw with hp | hp | hp <;> simp [PhaseOk, hp]

theorem inv_iff : Inv s ↔ CacheOk s ∧ (s.status = .ok ↔ s.phase ≠ .failed) ∧ Room s 0 ∧ PhaseOk s := by
  refine ⟨fun h => ⟨h.cache, h.status, h.store, ?_⟩, fun ⟨cache, status, store, h⟩ => ?_⟩
  · cases hp : s.phase <;> simp only [PhaseOk, hp]
    case decHeader => exact h.decHeader hp
    case decChunks => exact h.decChunks hp
    case decFinish => exact h.decFinish hp
    case encHeader => exact h.encHeader hp
    case encPixels => exact h.encPixels hp
    case encFinish => exact h.encFinish hp
  · refine ⟨cache, status, store, ?_, ?_, ?_, ?_, ?_, ?_⟩ <;> intro hp <;> simpa only [PhaseOk, hp] using h

/-! ### STATUS and the pixel store -/

/-- STATUS stays OK exactly while PHASE is not FAILED (R34, R247). -/
theorem step_keepsStatusOk (hs : s.status = .ok ↔ s.phase ≠ .failed) (h : step s = .next t) :
    t.status = .ok ↔ t.phase ≠ .failed := by
  by_cases hw : Waiting s
  · rcases hw.step_cases h with ⟨-, rfl⟩ | ⟨-, ok, hp⟩
    · exact hs
    · rcases hp with hp | hp <;> simp [ok, hp]
  · have ok : s.status = .ok := hs.mpr fun hp => hw (.inr (.inr hp))
    rcases step_status_cases h with ⟨hw', -⟩ | ⟨kept, hne⟩ | ⟨u, e, rfl, -⟩
    · exact absurd hw' hw
    · simp [kept, ok, hne]
    · simp

/-- The pixel store is never overfull: a chunk is stored as far as it fits, the trim and a command's start only take
pixels away (R185, R186). -/
theorem step_keepsStore (hr : Room s 0) (h : step s = .next t) : Room t 0 := by
  have fewer {u : State} (hc : u.cfg = s.cfg) (hl : u.outpix.length ≤ s.outpix.length) : Room u 0 := fun cap hcap =>
    hl.trans (hr cap (hc ▸ hcap))
  by_cases he : Encoding s
  · have k := he.keeps h
    exact fewer k.cfg (by rw [k.outpix])
  cases step_next h with
  | wait => exact hr
  | startDecode | startEncode => exact fewer rfl (Nat.zero_le _)
  | header | headerError | parseError | endLoop => exact fewer rfl le_rfl
  | countError | decodeDone => exact fewer rfl (List.length_take_le' _ _)
  | chunk _ _ _ room => exact fun cap hcap => by simpa [afterChunk] using room cap hcap
  | storeFull _ _ _ _ fits => exact fun cap hcap => by simpa [midChunk] using fits hr cap hcap
  | encHeader hp => exact absurd (.inl hp) he
  | runPixel hp | emitPixel hp => exact absurd (.inr (.inl hp)) he
  | encodeDone hp => exact absurd (.inr (.inr hp)) he

/-! ### The clause of the phase that a step leads to -/

/-- A whole header leads to the chunks (R28, R181). -/
theorem decodeOk_of_header (h : s.pos = 0 ∧ s.zc = 0 ∧ s.outpix = [] ∧ s.prev = Color.black) (hl : 14 ≤ s.inputLen)
    (hm : s.magicRead = Magic.qoif) : DecodeOk { s with hdr := headerRead s, pos := 14, phase := .decChunks } := by
  obtain ⟨-, hz, -, -⟩ := h
  exact ⟨le_rfl, hl, hm, hz.trans_le (Nat.zero_le _), fun counts => absurd hz counts.ne'⟩

/-- A chunk that is expanded keeps POS inside IN, and ZC counts its pixel only for Index(0), which leaves the color of
slot 0 in PREV (R182, R183). -/
theorem DecodeOk.afterChunk {c : Instr} (h : DecodeOk s) (hf : FetchOk s c) :
    DecodeOk (afterChunk c (applied c s) ((applied c s).getLastD s.prev) s) := by
  obtain ⟨-, -, -, inside⟩ := hf.spec
  have pixels : 0 < (applied c s).length := List.length_pos_of_ne_nil (applied_ne_nil c s)
  refine ⟨h.pos_ge.trans (Nat.le_add_right _ _), inside, h.magic, ?_, ?_⟩
  · show zcAfter s.zc c ≤ (s.outpix ++ applied c s).length
    have := h.zc_le
    rw [List.length_append, zcAfter]
    split <;> omega
  · intro counts
    have zero : c = .index 0 := by
      by_contra hc
      exact counts.ne' (if_neg hc)
    subst zero
    rfl

/-- The terminating Index(1) is the byte `01` (R184, R191). -/
theorem DecodeOk.finishOk (h : DecodeOk s) (hf : FetchOk s (.index 1)) (hz : 7 ≤ s.zc) :
    FinishOk { s with pos := s.pos + 1, phase := .decFinish } := by
  obtain ⟨inside, byte⟩ := fetchOk_index_one_iff.mp hf
  exact ⟨⟨h.pos_ge.trans (Nat.le_succ _), inside, h.magic, h.zc_le, h.prev_eq⟩, hz, byte⟩

/-- A command's start leaves the seeds (R210). -/
theorem encodeOk_encodeStarted {w ht : BitVec 32} {px : List Color} (hl : px.length = pixelCount w ht) (s : State) :
    EncodeOk (encodeStarted w ht px s) := ⟨hl, rfl, Nat.zero_le _, le_rfl, .inr ⟨rfl, rfl⟩⟩

/-- The clause of an ENCODE reads neither PHASE nor OUTB. -/
theorem EncodeOk.congr (h : EncodeOk s) (p : Phase) (bs : List Byte) : EncodeOk ((s.emit bs).setPhase p) := { h with }

/-- A pixel moves IDX by one; RUN moves by at most one, and PREV is in the cache or was not written (R213, R221). -/
theorem EncodeOk.afterPixel (h : EncodeOk s) (hi : s.idx < pixelCount s.wIn s.hIn) (px : Color) :
    EncodeOk (afterPixel px s) := by
  have k := encoderKeeps_afterPixel px s
  obtain ⟨-, idx, -, -⟩ := afterPixel_frame px s
  obtain ⟨run, seed⟩ : (Machine.afterPixel px s).run.toNat ≤ s.idx + 1 ∧ SeedOrCached (Machine.afterPixel px s) := by
    unfold Machine.afterPixel
    split
    · have longer : (s.run + 1).toNat ≤ s.run.toNat + 1 := Nat.mod_le _ _
      exact ⟨longer.trans (Nat.succ_le_succ h.run_le), h.seed⟩
    · exact ⟨by simp [emitted], .inl (by simp [emitted])⟩
  refine ⟨?_, ?_, ?_, ?_, seed⟩
  · rw [k.pixIn, k.wIn, k.hIn, h.size]
  · rw [k.hdr, k.wIn, k.hIn, h.hdr]
  · rw [idx, k.wIn, k.hIn]
    exact hi
  · rw [idx]
    exact run

theorem step_keepsPhaseOk (hi : PhaseOk s) (h : step s = .next t) : PhaseOk t := by
  cases step_next h with
  | wait => exact hi
  | startDecode => exact ⟨rfl, rfl, rfl, rfl⟩
  | startEncode _ _ hl => exact ⟨encodeOk_encodeStarted hl _, rfl, rfl⟩
  | header hp hl hm => exact decodeOk_of_header (by simpa only [PhaseOk, hp] using hi) hl hm
  | headerError | parseError | storeFull | countError => exact phaseOk_of_waiting (.inr (.inr rfl))
  | decodeDone | encodeDone => exact phaseOk_of_waiting (.inr (.inl rfl))
  | endLoop hp hf hz =>
    have ok : DecodeOk s := by simpa only [PhaseOk, hp] using hi
    exact ok.finishOk hf hz
  | chunk hp hf =>
    have ok : DecodeOk s := by simpa only [PhaseOk, hp] using hi
    simpa only [PhaseOk, hp, Machine.afterChunk] using ok.afterChunk hf
  | encHeader hp =>
    obtain ⟨ok, idx, -⟩ : EncodeOk s ∧ s.idx = 0 ∧ s.outb = [] := by simpa only [PhaseOk, hp] using hi
    split
    · next some => exact ⟨ok.congr _ _, idx.trans_lt some⟩
    · next none => exact ⟨ok.congr _ _, idx.trans (Nat.eq_zero_of_not_pos none).symm⟩
  | runPixel hp | emitPixel hp =>
    obtain ⟨ok, inside⟩ : EncodeOk s ∧ s.idx < pixelCount s.wIn s.hIn := by simpa only [PhaseOk, hp] using hi
    obtain ⟨px, -, e⟩ := afterPixel_of_step hp h
    obtain ⟨-, idx, -, -⟩ := afterPixel_frame px s
    have k := encoderKeeps_afterPixel px s
    have ok' := ok.afterPixel inside px
    rw [e]
    split
    · next last =>
      exact ⟨{ ok' with }, by simpa [k.wIn, k.hIn, idx] using last⟩
    · next more =>
      have inside' : s.idx + 1 < pixelCount s.wIn s.hIn := by omega
      exact ⟨{ ok' with }, by simpa [k.wIn, k.hIn, idx] using inside'⟩

end Sys2Proof.Machine

open Sys2Proof Sys2Proof.Machine

/-- Settles O48: each part of the invariant is kept by itself. -/
theorem stepKeepsTheInvariant : Obligations.StepKeepsTheInvariant := by
  intro s t inv h
  rw [inv_iff] at inv ⊢
  obtain ⟨cache, status, store, phase⟩ := inv
  exact ⟨step_keepsCacheOk cache h, step_keepsStatusOk status h, step_keepsStore store h, step_keepsPhaseOk phase h⟩

/-- Settles O47: at reset every slot has a color of hash 0 0 0 0, which is TRANS, and the core is idle. -/
theorem resetMeetsTheInvariant : Obligations.ResetMeetsTheInvariant :=
  inv_iff.mpr ⟨fun k => .inl (by simp [State.cacheRead, State.reset, Color.trans]), by simp [State.reset], nofun,
    phaseOk_of_waiting (.inl rfl)⟩

/-- Settles O39: the invariant says it of DEC_FINISH, and a finish step that succeeds writes OUTPIX and PHASE alone. -/
theorem endStateOfADecode : Obligations.EndStateOfADecode := by
  intro s t inv hp h ht
  have ok := inv.decFinish hp
  have zeros : 7 ≤ s.zc := ok.zc_ge
  have past : 14 ≤ s.pos := ok.pos_ge
  rcases decFinish_cases hp with ⟨e, failed⟩ | done
  · rw [failed] at h
    cases h
    cases ht
  rw [done] at h
  cases h
  exact ⟨zeros, ok.prev_eq (by omega), (show 1 ≤ 14 by decide).trans past, ok.pos_le, ok.last, fun _ => rfl⟩

end

section
/-! Every ENCODE (44_encode_driver.md R210 to R226): how many steps it takes, and what its stream is made of. Both are
read off one run of the encoder over its pixels, along which `LaidOut` says what OUTB holds. -/

namespace Sys2Proof.Machine

/-! ### The run over the pixels -/

section
variable {w h : BitVec 32} {px : List Color} {e₀ : State}

/-- The encoder gets to every pixel of its image, one a step, with whatever a pixel step keeps. -/
theorem EncodingAt.reaches {P : State → Prop} (hl : px.length = pixelCount w h) (he₀ : EncodingAt w h px 0 e₀)
    (start : P e₀) (keep : ∀ q e, P e → P (endPixel (afterPixel q e))) :
    ∀ {i : Nat}, i ≤ px.length → ∃ e, steps i e₀ = .next e ∧ EncodingAt w h px i e ∧ P e
  | 0, _ => ⟨e₀, rfl, he₀, start⟩
  | i + 1, hi => by
    obtain ⟨e, he, hat, hP⟩ := EncodingAt.reaches hl he₀ start keep (Nat.le_of_succ_le hi)
    obtain ⟨next, hat'⟩ := hat.step hl hi
    exact ⟨_, (steps_add he 1).trans (steps_succ next 0), hat', keep _ _ hP⟩

theorem EncodingAt.encoding {i : Nat} {e : State} (he : EncodingAt w h px i e) : Encoding e := by
  rw [Encoding, he.phase]
  split <;> simp

/-- After the last pixel one more step is the end (R222). -/
theorem EncodingAt.steps_done (hl : px.length = pixelCount w h) {e : State} (he : steps px.length e₀ = .next e)
    (hat : EncodingAt w h px px.length e) :
    steps (px.length + 1) e₀ = .next (((flushed e).emit endMarker).setPhase .done) :=
  (steps_add he 1).trans (steps_succ (EncodingAt.finish (hl ▸ hat)) 0)

end

/-! ### The layout of OUTB -/

/-- Not both chunks are Index(0). -/
def Apart (a b : Instr) : Prop := ¬ (a = .index 0 ∧ b = .index 0)

/-- OUTB holds `front` and the bytes of the chunks `cs`, well-formed and never Index(0) twice in a row. After an
Index(0) PREV is the color of slot 0, from which the next pixel to be emitted differs. -/
structure LaidOut (front : List Byte) (cs : List Instr) (e : State) : Prop where
  outb : e.outb = front ++ cs.flatMap encode
  chunks : ∀ c ∈ cs, c.wellFormed = true ∧ c ≠ .endMark
  apart : cs.IsChain Apart
  last : .index 0 ∈ cs.getLast? → e.prev = e.cacheRead 0

section
variable {front : List Byte} {cs : List Instr} {e t : State} {px : Color}

/-- The layout reads OUTB, PREV and CACHE alone. -/
theorem LaidOut.congr (h : LaidOut front cs e) (ho : t.outb = e.outb) (hp : t.prev = e.prev) (hc : t.cache = e.cache) :
    LaidOut front cs t :=
  ⟨ho.trans h.outb, h.chunks, h.apart, by rw [hp, cacheRead_congr hc]; exact h.last⟩

/-- One more chunk. -/
theorem LaidOut.concat {c : Instr} (h : LaidOut front cs e) (hw : c.wellFormed = true) (hm : c ≠ .endMark)
    (apart : .index 0 ∈ cs.getLast? → c ≠ .index 0) (ho : t.outb = e.outb ++ encode c)
    (last : c = .index 0 → t.prev = t.cacheRead 0) : LaidOut front (cs ++ [c]) t := by
  refine ⟨?_, ?_, ?_, ?_⟩
  · rw [ho, h.outb, List.flatMap_append, List.flatMap_singleton, List.append_assoc]
  · intro d hd
    rcases List.mem_append.mp hd with hd | hd
    · exact h.chunks d hd
    · rw [List.mem_singleton.mp hd]
      exact ⟨hw, hm⟩
  · refine h.apart.append (.singleton c) fun a ha b hb => ?_
    rintro ⟨rfl, rfl⟩
    cases hb
    exact apart ha rfl
  · rw [List.getLast?_concat]
    intro hc
    exact last (Option.some.inj hc)

/-- Run chunks are never Index(0). -/
theorem LaidOut.runs {runs : List Instr} (hr : ∀ c ∈ runs, ∃ n : BitVec 6, c = .run n ∧ n.toNat ≤ 61)
    (h : LaidOut front cs e) : LaidOut front (cs ++ runs) (e.emit (runs.flatMap encode)) := by
  induction runs generalizing cs e with
  | nil => simpa using h.congr (t := e.emit []) (List.append_nil _) rfl rfl
  | cons c runs ih =>
    obtain ⟨n, rfl, hn⟩ := hr c List.mem_cons_self
    have one : LaidOut front (cs ++ [.run n]) (e.emit (encode (.run n))) :=
      h.concat (decide_eq_true hn) nofun (fun _ => nofun) rfl nofun
    have rest := ih (fun d hd => hr d (List.mem_cons_of_mem _ hd)) one
    rw [List.append_cons]
    exact rest.congr (by simp) rfl rfl

/-- A flush adds its Run chunks (R214). -/
theorem LaidOut.flushed (h : LaidOut front cs e) : ∃ cs', LaidOut front cs' (flushed e) := by
  by_cases h0 : e.run = 0
  · exact ⟨cs, by rwa [flushed_zero h0]⟩
  · have runs : ∀ c ∈ runChunks e.run.toNat e.run.toNat, ∃ n : BitVec 6, c = .run n ∧ n.toNat ≤ 61 :=
      fun c hc => runChunks_run hc
    have some : runChunks e.run.toNat e.run.toNat ≠ [] := by
      rw [← List.isEmpty_eq_false_iff, runChunks_isEmpty, decide_eq_false_iff_not]
      exact fun hz => h0 (BitVec.eq_of_toNat_eq hz)
    obtain ⟨outb, chunks, apart, -⟩ := h.runs runs
    refine ⟨_, by rw [flushed_outb]; exact outb, chunks, apart, fun last => ?_⟩
    rw [List.getLast?_append_of_ne_nil _ some] at last
    obtain ⟨n, hn, -⟩ := runs _ (List.mem_of_getLast? last)
    cases hn

/-- A pixel step keeps the layout: after an Index(0) the pixel to be emitted is not the color of slot 0, so Index(0)
is not selected (R216, R221). -/
theorem LaidOut.afterPixel (h : LaidOut front cs e) (px : Color) : ∃ cs', LaidOut front cs' (afterPixel px e) := by
  unfold Machine.afterPixel
  split
  · exact ⟨cs, h.congr rfl rfl rfl⟩
  · next hne =>
    obtain ⟨cs', hf⟩ := (h.congr rfl rfl rfl : LaidOut front cs e.nextPixel).flushed
    obtain ⟨hw, hm, -⟩ := select_chunk px (Machine.flushed e.nextPixel)
    refine ⟨_, hf.concat hw hm (fun last zero => hne ?_) rfl fun zero => ?_⟩
    · obtain ⟨slot, hit⟩ := select_eq_index zero
      have prev := hf.last last
      rw [flushed_prev] at prev
      exact (slot ▸ hit).symm.trans prev.symm
    · obtain ⟨slot, -⟩ := select_eq_index zero
      rw [← slot]
      exact (cacheRead_cacheWrite_self _ px).symm

theorem LaidOut.not_two_index_zero (h : LaidOut front cs e) (a b : List Instr) :
    a ++ [.index 0, .index 0] ++ b ≠ cs := by
  rintro rfl
  have two : List.IsChain Apart [Instr.index 0, .index 0] := h.apart.infix ⟨a, b, rfl⟩
  exact List.isChain_pair.mp two ⟨rfl, rfl⟩

end

end Sys2Proof.Machine

open Sys2Proof Sys2Proof.Machine

/-- Settles O57: the header step leaves the header and no chunk, every pixel step keeps the layout, and so does the
flush before the end marker. -/
theorem encodedStreamLayout : Obligations.EncodedStreamLayout := by
  intro s w h px hw hh hl
  have begins : LaidOut (headerBytes (encodeHeader w h)) [] (encoderStart w h px { s with host := [] }) :=
    ⟨rfl, nofun, .nil, nofun⟩
  obtain ⟨e, he, hat, cs, laid⟩ := (encodingAt_encoderStart { s with host := [] }).reaches hl
    (P := fun e => ∃ cs, LaidOut (headerBytes (encodeHeader w h)) cs e) ⟨[], begins⟩ (fun q e ⟨cs, laid⟩ => by
      obtain ⟨cs', laid'⟩ := laid.afterPixel q
      rw [endPixel_eq]
      exact ⟨cs', laid'.congr rfl rfl rfl⟩) le_rfl
  obtain ⟨cs', laid'⟩ := laid.flushed
  have run := (steps_add (steps_encoderStart hw hh hl) _).trans (EncodingAt.steps_done hl he hat)
  refine ⟨2 + (px.length + 1), cs', ?_, laid'.chunks, laid'.not_two_index_zero⟩
  rw [observed_of_steps .encode run]
  show some (Observation.stream ((flushed e).outb ++ endMarker)) = _
  rw [laid'.outb]
  rfl

/-- Settles O56: the start and the header take two steps, each pixel one, and the finish one. -/
theorem encodeEndsAfterExactlyItsPixels : Obligations.EncodeEndsAfterExactlyItsPixels := by
  intro s w h px hw hh hl
  rw [← hl]
  have header := steps_encoderStart hw hh hl
  have reaches {i : Nat} (hi : i ≤ px.length) :=
    (encodingAt_encoderStart (w := w) (h := h) (px := px) { s with host := [] }).reaches hl (P := fun _ => True) trivial
      (fun _ _ _ => trivial) hi
  refine ⟨?_, fun k h1 hk => ?_⟩
  · obtain ⟨e, he, hat, -⟩ := reaches le_rfl
    have run := (steps_add header _).trans (EncodingAt.steps_done hl he hat)
    rw [show 2 + (px.length + 1) = px.length + 3 by omega] at run
    exact ⟨_, run, rfl, flushed_run e, (flushed_idx e).trans hat.idx⟩
  · rcases Nat.eq_or_lt_of_le h1 with rfl | h2
    · exact ⟨_, steps_succ ((step_command hw hh).trans (startEncode_ok hl _)) 0, .inl rfl⟩
    · obtain ⟨e, he, hat, -⟩ := reaches (i := k - 2) (by omega)
      exact ⟨e, by rw [show k = 2 + (k - 2) by omega, steps_add header, he], hat.encoding⟩

end

section
/-! The instructions as a family (42_predictor_cache.md section 3, 43_decode_driver.md R182 to R185): the cache, the
frame, the full store, and `.END` as the eight chunks it stands for. -/

namespace Sys2Proof.Machine

variable {c : Instr} {s t : State}

/-! ### `.END` -/

/-- An Index chunk that does not end the loop is expanded to the color of its slot. -/
theorem lookupChunk_eq {k : BitVec 6} (h : endsLoop s.zc (.index k) = false) :
    lookupChunk k s = expandChunk (.index k) [s.cacheRead k] (writesCache (.index k)) s :=
  if_neg (Bool.eq_false_iff.mp h)

/-- The decoder's Index(0), as a part of `.END`. -/
theorem lookupChunk_zero (hr : Room s 1) : lookupChunk 0 s = .ok (afterZeros 1 s) := by
  have stays : endsLoop s.zc (.index 0) = false := endsLoop_eq_false fun h => absurd h.1 (by decide)
  rw [lookupChunk_eq stays, expandChunk_ok hr rfl]
  rfl

/-- Index(0) chunks in front of others are read as pixels of slot 0. -/
theorem lookupChunks_zeros {n : Nat} (ks : List (BitVec 6)) : ∀ {s : State}, Room s (n + 1) →
    lookupChunks (List.replicate (n + 1) 0 ++ ks) s = lookupChunks ks (afterZeros (n + 1) s) := by
  induction n with
  | zero =>
    intro s hr
    show (lookupChunk 0 s).bind (lookupChunks ks) = _
    rw [lookupChunk_zero hr]
    rfl
  | succ n ih =>
    intro s hr
    have room : Room (afterZeros 1 s) (n + 1) := by
      intro cap h
      have := hr cap h
      simp only [afterZeros, List.length_append, List.length_replicate]
      omega
    show (lookupChunk 0 s).bind (lookupChunks (List.replicate (n + 1) 0 ++ ks)) = _
    rw [lookupChunk_zero (hr.mono (by omega)), Attempt.bind, ih room, afterZeros_afterZeros, Nat.add_comm 1]

/-- `.END` with room for its seven pixels (R88, R184). -/
theorem exec_endMark (hr : Room s 7) : exec .endMark s = .next (afterMarker s) := by
  have zeros : lookupChunks endExpansion s = lookupChunks [1] (afterZeros 7 s) := lookupChunks_zeros [1] hr
  have ends : endsLoop (afterZeros 7 s).zc (.index 1) = true := by simp [endsLoop, afterZeros]
  have last : lookupChunk 1 (afterZeros 7 s) = .ok (afterMarker s) := if_pos ends
  rw [exec, execEndMark, zeros, lookupChunks, last]
  rfl

/-! ### The frame of an instruction -/

theorem DecoderKeeps.trans {u : State} (h : DecoderKeeps s t) (h' : DecoderKeeps t u) : DecoderKeeps s u :=
  ⟨h'.run.trans h.run, h'.fre.trans h.fre, h'.idx.trans h.idx, h'.outb.trans h.outb, h'.input.trans h.input,
    h'.wIn.trans h.wIn, h'.hIn.trans h.hIn, h'.pixIn.trans h.pixIn, h'.host.trans h.host, h'.cfg.trans h.cfg⟩

/-- What running chunks keeps, up to where a full store raises an error (R182, R184, R185). -/
structure ChunkKeeps (s t : State) : Prop extends DecoderKeeps s t where
  hdr : t.hdr = s.hdr
  status : t.status = s.status
  outpix : s.outpix <+: t.outpix
  phase : t.phase = s.phase ∨ t.phase = .decFinish

theorem ChunkKeeps.refl (s : State) : ChunkKeeps s s :=
  ⟨by constructor <;> rfl, rfl, rfl, List.prefix_rfl, .inl rfl⟩

theorem ChunkKeeps.trans {u : State} (h : ChunkKeeps s t) (h' : ChunkKeeps t u) : ChunkKeeps s u :=
  ⟨h.toDecoderKeeps.trans h'.toDecoderKeeps, h'.hdr.trans h.hdr, h'.status.trans h.status, h.outpix.trans h'.outpix,
    h'.phase.elim (fun e => e ▸ h.phase) .inr⟩

theorem chunkKeeps_endLoop (s : State) : ChunkKeeps s { s with pos := s.pos + 1, phase := .decFinish } :=
  ⟨by constructor <;> rfl, rfl, rfl, List.prefix_rfl, .inr rfl⟩

theorem chunkKeeps_afterChunk (c : Instr) (px : List Color) (p : Color) (s : State) :
    ChunkKeeps s (afterChunk c px p s) :=
  ⟨by constructor <;> rfl, rfl, rfl, List.prefix_append _ _, .inl rfl⟩

theorem chunkKeeps_midChunk (c : Instr) (px : List Color) (n : Nat) (s : State) : ChunkKeeps s (midChunk c px n s) :=
  ⟨by constructor <;> rfl, rfl, rfl, List.prefix_append _ _, .inl rfl⟩

/-- The cache after a chunk: the slot of the new PREV, if the variant writes it (R160). -/
theorem cacheRead_afterChunk (c : Instr) (px : List Color) (p : Color) (s : State) (k : BitVec 6) :
    (afterChunk c px p s).cacheRead k = if writesCache c = true ∧ k = p.hash then p else s.cacheRead k := by
  cases hw : writesCache c with
  | true =>
    rw [cacheRead_congr (s := s.cacheWrite p) (by rw [afterChunk, hw]; rfl), cacheRead_cacheWrite]
    simp
  | false =>
    rw [cacheRead_congr (s := s) (by rw [afterChunk, hw]; rfl)]
    simp

/-- An attempt gets to a state of which `R` holds, and goes on or finds the store full there. -/
inductive Attempt.Reaches (R : State → Prop) : Attempt → Prop where
  | ok {t : State} (h : R t) : Reaches R (.ok t)
  | full {t : State} {ix : Nat} (h : R t) : Reaches R (.raised (.bufferBounds ix) t)

theorem Attempt.Reaches.imp {R Q : State → Prop} {a : Attempt} (h : a.Reaches R) (imp : ∀ t, R t → Q t) :
    a.Reaches Q := by
  cases h with
  | ok h => exact .ok (imp _ h)
  | full h => exact .full (imp _ h)

/-- Index chunks write no slot. -/
theorem lookupChunk_keeps (k : BitVec 6) (s : State) :
    (lookupChunk k s).Reaches fun t => ChunkKeeps s t ∧ t.cache = s.cache := by
  cases he : endsLoop s.zc (.index k) with
  | true =>
    have ends : lookupChunk k s = .ok _ := if_pos he
    rw [ends]
    exact .ok ⟨chunkKeeps_endLoop s, rfl⟩
  | false =>
    rw [lookupChunk_eq he]
    rcases expandChunk_cases (.index k) [s.cacheRead k] s with e | ⟨n, ix, e⟩ <;> rw [e]
    · exact .ok ⟨chunkKeeps_afterChunk _ _ _ s, rfl⟩
    · exact .full ⟨chunkKeeps_midChunk _ _ _ s, rfl⟩

theorem lookupChunks_keeps (ks : List (BitVec 6)) (s : State) :
    (lookupChunks ks s).Reaches fun t => ChunkKeeps s t ∧ t.cache = s.cache := by
  induction ks generalizing s with
  | nil => exact .ok ⟨.refl s, rfl⟩
  | cons k ks ih =>
    have first := lookupChunk_keeps k s
    rw [lookupChunks]
    generalize lookupChunk k s = a at first ⊢
    cases first with
    | full h => exact .full h
    | @ok t h =>
      obtain ⟨keeps, cache⟩ := h
      exact (ih t).imp fun _ ⟨keeps', cache'⟩ => ⟨keeps.trans keeps', cache'.trans cache⟩

/-- Everything an instruction that goes on can have done: it leads to a state that keeps what chunks keep and every
slot but that of PREV, or raises BufferBoundsError there (R185, R247). -/
theorem exec_keeps (h : exec c s = .next t) : ∃ u, ChunkKeeps s u ∧
    (∀ k, k ≠ u.prev.hash → u.cacheRead k = s.cacheRead k) ∧ (t = u ∨ ∃ ix, t = u.enterError (.bufferBounds ix)) := by
  by_cases hm : c = .endMark
  · subst hm
    rw [exec, execEndMark] at h
    have run := lookupChunks_keeps endExpansion s
    generalize lookupChunks endExpansion s = a at run h
    obtain ⟨keeps, cache⟩ | ⟨keeps, cache⟩ := run <;> cases h
    · exact ⟨_, keeps, fun k _ => cacheRead_congr cache k, .inl rfl⟩
    · exact ⟨_, keeps, fun k _ => cacheRead_congr cache k, .inr ⟨_, rfl⟩⟩
  · rcases exec_cases c s hm with ⟨-, e⟩ | ⟨-, e⟩ | ⟨-, e⟩ | ⟨-, n, ix, e⟩ <;> rw [e] at h <;> cases h
    · exact ⟨_, chunkKeeps_endLoop s, fun _ _ => rfl, .inl rfl⟩
    · exact ⟨_, chunkKeeps_afterChunk _ _ _ s,
        fun k hk => (cacheRead_afterChunk _ _ _ s k).trans (if_neg fun h => hk h.2), .inl rfl⟩
    · exact ⟨_, chunkKeeps_midChunk _ _ n s, fun _ _ => rfl, .inr ⟨ix, rfl⟩⟩

end Sys2Proof.Machine

open Sys2Proof Sys2Proof.Machine

/-- Settles O28: a reserved field is ill-formed, and a parsed chunk is not. -/
theorem reservedRunIsRefused : Obligations.ReservedRunIsRefused := by
  intro n hn
  have ill : (Instr.run n).wellFormed = false := decide_eq_false (by omega)
  exact ⟨fun s => exec_illFormed ill, fun bs len h => absurd (parseOne_ok h).1 (by simp [ill])⟩

/-- Settles O29: the seven Index(0) and the Index(1) of `.END`, added up. -/
theorem endMarkResult : Obligations.EndMarkResult :=
  fun _ hr => exec_endMark hr

/-- Settles O34: the driver's eight steps and `.END` lead to `afterMarker`. -/
theorem markerRunsAsEightSteps : Obligations.MarkerRunsAsEightSteps :=
  fun _ _ hp hi hr => (steps_endMarker hp hi hr).trans (exec_endMark hr).symm

/-- Settles O33: the chunk at POS is fetched, and the parser's answer is well-formed and of its variant's length. -/
theorem stepRunsTheParsedChunk : Obligations.StepRunsTheParsedChunk := by
  intro s c n hp h
  obtain ⟨hw, -, hl, -⟩ := parseOne_ok h
  exact ⟨step_of_fetchOk hp (fetchOk_of_parse h), hl, hw⟩

/-- Settles O30: with room a chunk leads to `afterChunk`, where only an Index writes no slot. -/
theorem cacheUpdateByVariant : Obligations.CacheUpdateByVariant := by
  intro c s hw hm stays hr
  have last : (applied c s).getLast? = some ((applied c s).getLastD s.prev) := by
    rw [List.getLastD_eq_getLast?, List.getLast?_eq_some_getLast (applied_ne_nil c s), Option.getD_some]
  refine ⟨_, _, exec_room hw hm (endsLoop_eq_false stays) hr, last, rfl, fun k => ?_⟩
  rw [cacheRead_afterChunk]
  cases c with
  | index => exact if_neg fun h => nomatch h.1
  | rgb | rgba | diff | luma | run | endMark => simp [writesCache]

/-- Settles O31: error entry changes STATUS and PHASE alone. -/
theorem instructionFrame : Obligations.InstructionFrame := by
  intro i s t h
  obtain ⟨u, k, slots, rfl | ⟨ix, rfl⟩⟩ := exec_keeps h
  · exact ⟨k.run, k.fre, k.idx, k.hdr, k.outb, k.input, k.wIn, k.hIn, k.pixIn, k.host, k.cfg, k.outpix, slots,
      .inl ⟨k.status, k.phase⟩⟩
  · exact ⟨k.run, k.fre, k.idx, k.hdr, k.outb, k.input, k.wIn, k.hIn, k.pixIn, k.host, k.cfg, k.outpix, slots,
      .inr ⟨ix, rfl, rfl⟩⟩

/-- Settles O32: the chunk's expansion finds the store full, and enters the error. -/
theorem fullStoreRaisesBufferBounds : Obligations.FullStoreRaisesBufferBounds := by
  intro c s cap hw hm stays hc h1 h2
  rw [exec_eq_expandChunk hw hm (endsLoop_eq_false stays), expandChunk_full hc h1 h2]
  rfl

end

section
/-! Every DECODE ends (43_decode_driver.md R193): a chunk step raises an error or moves POS, which stays inside IN, so
the bytes left of the stream bound the chunk steps. -/

namespace Sys2Proof.Machine

variable {s t : State} {input : List Byte}

/-- A chunk step fails, or moves POS forward inside IN and goes on to the chunks or the finish (R182, R184). -/
theorem chunkStep_progress (hp : s.phase = .decChunks) (h : step s = .next t) :
    (t.phase = .failed ∧ t.status ≠ .ok) ∨
      (s.pos < t.pos ∧ t.pos ≤ t.inputLen ∧ (t.phase = .decChunks ∨ t.phase = .decFinish)) := by
  cases step_next h with
  | parseError | storeFull => exact .inl ⟨rfl, nofun⟩
  | endLoop _ hf =>
    obtain ⟨-, -, -, inside⟩ := hf.spec
    exact .inr ⟨Nat.lt_succ_self _, inside, .inr rfl⟩
  | chunk _ hf =>
    obtain ⟨-, -, some, inside⟩ := hf.spec
    exact .inr ⟨Nat.lt_add_of_pos_right some, inside, .inl hp⟩
  | wait hw | startDecode hw | startEncode hw => simp [Waiting, hp] at hw
  | header hq | headerError hq | countError hq | decodeDone hq | encHeader hq | runPixel hq | emitPixel hq
  | encodeDone hq => exact absurd (hp.symm.trans hq) nofun

/-- The operation has ended. -/
def Ended (s : State) : Prop := s.phase = .done ∨ s.phase = .failed

/-- A finish step ends the decode (R187). -/
theorem decFinish_ends (hp : s.phase = .decFinish) : ∃ t, step s = .next t ∧ Ended t := by
  rcases decFinish_cases hp with ⟨e, failed⟩ | done
  · exact ⟨_, failed, .inr rfl⟩
  · exact ⟨_, done, .inl rfl⟩

/-- A decode at the chunks ends after at most as many chunk steps that advance as bytes are left, and one step more
(R193, log 19). -/
theorem DecodeOnly.ends {s : State} (hd : DecodeOnly input s) (hp : s.phase = .decChunks) (hl : s.pos ≤ input.length) :
    ∃ n t, n ≤ (input.length - s.pos) + 1 ∧ steps n s = .next t ∧ DecodeOnly input t ∧ Ended t := by
  obtain ⟨t, ht⟩ := Decoding.step_goes_on (.inr (.inl hp))
  have hd' := hd.of_step ht
  rcases chunkStep_progress hp ht with ⟨failed, -⟩ | ⟨moves, inside, goes⟩
  · exact ⟨1, t, by omega, steps_succ ht 0, hd', .inr failed⟩
  have bounded : t.pos ≤ input.length := by rwa [State.inputLen, hd'.input] at inside
  rcases goes with hp' | hp'
  · obtain ⟨n, u, hn, hu, ended⟩ := hd'.ends hp' bounded
    exact ⟨n + 1, u, by omega, (steps_succ ht n).trans hu, ended⟩
  · obtain ⟨u, hu, ended⟩ := decFinish_ends hp'
    exact ⟨2, u, by omega, (steps_succ ht 1).trans (steps_succ hu 0), hd'.of_step hu, ended⟩
termination_by input.length - s.pos
decreasing_by omega

end Sys2Proof.Machine

open Sys2Proof Sys2Proof.Machine

/-- Settles O41: what a chunk step can have done. -/
theorem chunkStepsMakeProgress : Obligations.ChunkStepsMakeProgress :=
  fun _ _ hp _ h => chunkStep_progress hp h

/-- Settles O42: the start, the header step, which fails or leaves all but 14 bytes to the chunks, and the chunks. -/
theorem everyDecodeEnds : Obligations.EveryDecodeEnds := by
  intro s input hw hh
  have start : step s = .next (startDecode input { s with host := [] }) := step_command hw hh
  have only : DecodeOnly input (startDecode input { s with host := [] }) := ⟨rfl, rfl, by simp [startDecode, Encoding]⟩
  obtain ⟨t, ht⟩ := Decoding.step_goes_on (s := startDecode input { s with host := [] }) (.inl rfl)
  have hd := only.of_step ht
  have two : steps 2 s = .next t := (steps_succ start 1).trans (steps_succ ht 0)
  cases step_next ht with
  | header _ hl _ =>
    replace hl : 14 ≤ input.length := hl
    obtain ⟨n, u, hn, hu, hd', ended⟩ := hd.ends rfl hl
    replace hn : n ≤ (input.length - 14) + 1 := hn
    exact ⟨2 + n, u, by omega, (steps_add two n).trans hu, ended, hd'.host⟩
  | headerError => exact ⟨2, _, by omega, two, .inr rfl, rfl⟩
  | wait hq | startDecode hq | startEncode hq => rcases hq with h | h | h <;> cases h
  | parseError hq | endLoop hq | chunk hq | storeFull hq | countError hq | decodeDone hq | encHeader hq | runPixel hq
  | emitPixel hq | encodeDone hq => cases hq

end

section
/-! The encoder's selection (44_encode_driver.md R216 to R220), in terms of signed differences: a biased difference
fits its field exactly when the true delta lies in the field's range, and the field is then the delta plus its bias. -/

namespace Sys2Proof.Machine

/-! ### A biased difference -/

/-- A difference biased by `b` is below `2b` exactly when it is one from `-b` to `b - 1` (30_encoding.md R83). -/
theorem biased_lt_iff (d : Byte) {b : Nat} (h : b ≤ 64) :
    d + BitVec.ofNat 8 b < BitVec.ofNat 8 (2 * b) ↔ -b ≤ d.toInt ∧ d.toInt ≤ b - 1 := by
  have hd := d.isLt
  rw [BitVec.lt_def, BitVec.toNat_add, BitVec.toNat_ofNat, BitVec.toNat_ofNat, BitVec.toInt_eq_toNat_cond]
  split <;> omega

/-- The field of a biased difference is the signed difference plus the bias. -/
theorem setWidth_biased (d : Byte) {n : Nat} (hn : n ≤ 8) (b : Nat) :
    (d + BitVec.ofNat 8 b).setWidth n = BitVec.ofInt n (d.toInt + b) := by
  have signed : BitVec.ofInt n d.toInt = d.setWidth n := BitVec.signExtend_eq_setWidth_of_le d hn
  rw [BitVec.setWidth_add _ _ hn, BitVec.setWidth_ofNat_of_le hn, BitVec.ofInt_add, signed, BitVec.ofInt_natCast]

/-! ### The encoder's differences are biased true deltas -/

section
variable (x p g q : Byte)

theorem diffField_eq : diffField x p = (x - p) + 2 := by
  rw [diffField]
  ring

theorem lumaGreenField_eq : lumaGreenField (diffField x p) = (x - p) + 32 := by
  rw [lumaGreenField, diffField_eq, add_assoc]
  rfl

theorem lumaRelField_eq :
    lumaRelField (diffField x p) (lumaGreenField (diffField g q)) = ((x - p) - (g - q)) + 8 := by
  rw [lumaRelField, lumaGreenField_eq, diffField_eq]
  ring

theorem diffField_lt_iff : diffField x p < 4 ↔ -2 ≤ trueDelta x p ∧ trueDelta x p ≤ 1 := by
  rw [diffField_eq]
  exact biased_lt_iff (x - p) (b := 2) (by decide)

theorem lumaGreenField_lt_iff :
    lumaGreenField (diffField x p) < 64 ↔ -32 ≤ trueDelta x p ∧ trueDelta x p ≤ 31 := by
  rw [lumaGreenField_eq]
  exact biased_lt_iff (x - p) (b := 32) (by decide)

theorem lumaRelField_lt_iff : lumaRelField (diffField x p) (lumaGreenField (diffField g q)) < 16 ↔
    -8 ≤ trueDelta (x - p) (g - q) ∧ trueDelta (x - p) (g - q) ≤ 7 := by
  rw [lumaRelField_eq]
  exact biased_lt_iff ((x - p) - (g - q)) (b := 8) (by decide)

theorem diffField_setWidth : (diffField x p).setWidth 2 = BitVec.ofInt 2 (trueDelta x p + 2) := by
  rw [diffField_eq]
  exact setWidth_biased (x - p) (by decide) 2

theorem lumaGreenField_setWidth :
    (lumaGreenField (diffField x p)).setWidth 6 = BitVec.ofInt 6 (trueDelta x p + 32) := by
  rw [lumaGreenField_eq]
  exact setWidth_biased (x - p) (by decide) 32

theorem lumaRelField_setWidth : (lumaRelField (diffField x p) (lumaGreenField (diffField g q))).setWidth 4 =
    BitVec.ofInt 4 (trueDelta (x - p) (g - q) + 8) := by
  rw [lumaRelField_eq]
  exact setWidth_biased ((x - p) - (g - q)) (by decide) 8

end

theorem diffFits_iff (dr dg db : Byte) : diffFits dr dg db = true ↔ dr < 4 ∧ dg < 4 ∧ db < 4 := by
  simp [diffFits, and_assoc]

theorem lumaFits_iff (dg' drg dbg : Byte) : lumaFits dg' drg dbg = true ↔ dg' < 64 ∧ drg < 16 ∧ dbg < 16 := by
  simp [lumaFits, and_assoc]

end Sys2Proof.Machine

open Sys2Proof Sys2Proof.Machine

/-- Settles O52: the tests on the biased differences are those on the true deltas, in the order of `select`. -/
theorem selectionByTrueDeltas : Obligations.SelectionByTrueDeltas := by
  intro px s dr dg db rel small near miss
  have diff :
      diffFits (diffField px.r s.prev.r) (diffField px.g s.prev.g) (diffField px.b s.prev.b) = true ↔ small := by
    rw [diffFits_iff, diffField_lt_iff, diffField_lt_iff, diffField_lt_iff]
  have luma : lumaFits (lumaGreenField (diffField px.g s.prev.g))
      (lumaRelField (diffField px.r s.prev.r) (lumaGreenField (diffField px.g s.prev.g)))
      (lumaRelField (diffField px.b s.prev.b) (lumaGreenField (diffField px.g s.prev.g))) = true ↔ near := by
    rw [lumaFits_iff, lumaGreenField_lt_iff, lumaRelField_lt_iff, lumaRelField_lt_iff]
  have sameAlpha (hm : miss) (ha : px.a = s.prev.a) : select px s = selectOpaque px s.prev :=
    (select_of_miss hm).trans (if_pos ha)
  refine ⟨select_of_hit, fun hm ha => (select_of_miss hm).trans (if_neg ha), fun hm ha hs => ?diff,
    fun hm ha hs hn => ?luma, fun hm ha hs hn => ?rgb⟩ <;> refine (sameAlpha hm ha).trans ?_
  case diff =>
    refine (if_pos (diff.mpr hs)).trans ?_
    rw [diffField_setWidth, diffField_setWidth, diffField_setWidth]
  case luma =>
    refine (if_neg (mt diff.mp hs)).trans ((if_pos (luma.mpr hn)).trans ?_)
    rw [lumaGreenField_setWidth, lumaRelField_setWidth, lumaRelField_setWidth]
  case rgb => exact (if_neg (mt diff.mp hs)).trans (if_neg (mt luma.mp hn))

/-- Settles O53: the selection is never an ill-formed chunk, and the encoder's and the decoder's biases cancel. -/
theorem selectedChunkExpandsToThePixel : Obligations.SelectedChunkExpandsToThePixel :=
  fun px s => ⟨(select_chunk px s).1, applied_select px s⟩

end

section
/-! PARSE_ONE on a stream that ends too soon (41_chunk_codec.md R120 to R125), and on the end marker
(30_encoding.md section 7). -/

namespace Sys2Proof

theorem parseOne_rgb_short {rest : List Byte} (h : rest.length < 3) :
    parseOne (0xFE :: rest) = .error (.short 4) := by
  show parseRgb rest = _
  unfold parseRgb
  split
  · simp only [List.length_cons] at h
    omega
  · rfl

theorem parseOne_rgba_short {rest : List Byte} (h : rest.length < 4) :
    parseOne (0xFF :: rest) = .error (.short 5) := by
  show parseRgba rest = _
  unfold parseRgba
  split
  · simp only [List.length_cons] at h
    omega
  · rfl

theorem parseOne_luma_short {t : Byte} (h : tagPrefix t = 0b10#2) : parseOne [t] = .error (.short 2) := by
  obtain ⟨hFE, hFF⟩ := ne_exactTags_of_tagPrefix_ne (t := t) (by simp [h])
  simp [parseOne, parseLuma, hFE, hFF, h]

namespace Machine

variable {s : State}

/-- A chunk that cannot be parsed ends the decode with its error (R182). -/
theorem step_parseError {e : ParseError} (hp : s.phase = .decChunks) (h : parseOne (s.input.drop s.pos) = .error e) :
    step s = .next (s.enterError (parseErrorAt s.pos e)) := by
  rw [step_decChunks hp, decChunkStep, fetchChunk, h]

/-- With a byte left, the rest of the stream is that byte and what follows. -/
theorem drop_pos_eq_cons (hl : s.pos < s.inputLen) :
    s.input.drop s.pos = s.byteAt s.pos :: s.input.drop (s.pos + 1) := by
  rw [State.byteAt, List.getD_eq_getElem _ _ hl]
  exact List.drop_eq_getElem_cons hl

theorem length_drop_lt {n k : Nat} (h : s.inputLen < n + k) (hk : 0 < k) : (s.input.drop n).length < k := by
  rw [State.inputLen] at h
  rw [List.length_drop]
  omega

end Machine

end Sys2Proof

open Sys2Proof Sys2Proof.Machine

/-- Settles O13: in each case PARSE_ONE fails with the length it needs, and the step enters that error. -/
theorem truncatedChunksFail : Obligations.TruncatedChunksFail := by
  intro s hp
  refine ⟨fun hl => ?tag, fun hl ht short => ?rgb, fun hl ht short => ?rgba, fun hl lo hi short => ?luma⟩
  case tag => exact step_parseError hp (e := .noTag) (by rw [List.drop_eq_nil_of_le hl]; rfl)
  case rgb =>
    refine step_parseError hp (e := .short 4) ?_
    rw [drop_pos_eq_cons hl, ht]
    exact parseOne_rgb_short (length_drop_lt (by omega) (by decide))
  case rgba =>
    refine step_parseError hp (e := .short 5) ?_
    rw [drop_pos_eq_cons hl, ht]
    exact parseOne_rgba_short (length_drop_lt (by omega) (by decide))
  case luma =>
    refine step_parseError hp (e := .short 2) ?_
    have luma : tagPrefix (s.byteAt s.pos) = 0b10#2 :=
      (tagPrefix_eq_iff _ 0b10#2).mpr (show (s.byteAt s.pos).toNat / 64 = 2 by omega)
    have last : s.input.drop (s.pos + 1) = [] := List.drop_eq_nil_of_le (Nat.le_of_lt_succ short)
    rw [drop_pos_eq_cons hl, last]
    exact parseOne_luma_short luma

/-- Settles O18: the first seven bytes are `00`, which is Index(0), and the last `01`, which is Index(1). -/
theorem endMarkerIsSevenIndexZeroAndIndexOne : Obligations.EndMarkerIsSevenIndexZeroAndIndexOne := by
  intro rest
  have zero (bs : List Byte) : parseOne (0x00 :: bs) = .ok (.index 0, 1) := parseOne_index (by decide) bs
  have one (bs : List Byte) : parseOne (0x01 :: bs) = .ok (.index 1, 1) := parseOne_index (by decide) bs
  refine ⟨fun k hk => ?_, one rest⟩
  interval_cases k <;> exact zero _

end

section
/-! CHANNELS and COLORSPACE do not influence decoding (40_header_codec.md R102). Two lone decodes run side by side
whose streams differ in these two bytes: the header step reads them into HDR and nothing else, the chunks stand behind
them, and the count check and the host read WIDTH and HEIGHT alone. -/

namespace Sys2Proof.Machine

/-! ### The two streams -/

/-- The streams differ at most in bytes 12 and 13. -/
structure SameButFormat (input input' : List Byte) : Prop where
  length : input'.length = input.length
  front : ∀ a, a < 12 → input'.getD a 0 = input.getD a 0
  chunks : input'.drop 14 = input.drop 14

theorem sameButFormat_append {front rest : List Byte} (hf : front.length = 12) (c d c' d' : Byte) :
    SameButFormat (front ++ [c, d] ++ rest) (front ++ [c', d'] ++ rest) := by
  have chunks (x y : Byte) : (front ++ [x, y] ++ rest).drop 14 = rest := List.drop_left' (by simp [hf])
  refine ⟨by simp, fun a ha => ?_, (chunks c' d').trans (chunks c d).symm⟩
  rw [List.append_assoc, List.append_assoc, List.getD_append _ _ _ _ (hf ▸ ha), List.getD_append _ _ _ _ (hf ▸ ha)]

/-! ### A step on the other stream -/

section
variable {s o : State}

/-- The header parse ends with the same WIDTH and HEIGHT, or with the same error. -/
theorem decHeaderStep_sameButFormat (hi : SameButFormat s.input o.input) :
    EndAlike (fun t t' => t' = t.withOperandsOf t' ∧ t'.input = o.input ∧
      (t.phase = .failed ∨ 14 ≤ t.pos ∧ t'.hdr.width = t.hdr.width ∧ t'.hdr.height = t.hdr.height))
      (decHeaderStep s) (decHeaderStep (s.withOperandsOf o)) := by
  have byte (a : Nat) (ha : a < 12) : (s.withOperandsOf o).byteAt a = s.byteAt a := hi.front a ha
  have magic : (s.withOperandsOf o).magicRead = s.magicRead := by simp [State.magicRead, byte]
  have word4 : (s.withOperandsOf o).wordAt 4 = s.wordAt 4 := by simp [State.wordAt, byte]
  have word8 : (s.withOperandsOf o).wordAt 8 = s.wordAt 8 := by simp [State.wordAt, byte]
  have he : (parseHeader (s.withOperandsOf o)).error? = (parseHeader s).error? := by
    have hl : (s.withOperandsOf o).inputLen = s.inputLen := hi.length
    have hp : (s.withOperandsOf o).pos = s.pos := rfl
    rw [parseHeader_error?, parseHeader_error?, hl, magic, hp]
  rcases parseHeader_cases s with ⟨-, -, e⟩ | ⟨-, er, h, e, -⟩ <;>
    rcases parseHeader_cases (s.withOperandsOf o) with ⟨-, -, e'⟩ | ⟨-, er', h', e', -⟩ <;>
    rw [e, e'] at he <;> cases he <;> rw [decHeaderStep, decHeaderStep, e, e']
  · exact .next ⟨rfl, rfl, .inr ⟨le_rfl, word4, word8⟩⟩
  · exact .next ⟨rfl, rfl, .inl rfl⟩

/-- Behind the header the chunk at POS is the same. -/
theorem decChunkStep_sameButFormat (hi : SameButFormat s.input o.input) (hp : 14 ≤ s.pos) :
    SameBut o (decChunkStep s) (decChunkStep (s.withOperandsOf o)) := by
  have rest : (s.withOperandsOf o).input.drop (s.withOperandsOf o).pos = s.input.drop s.pos := by
    show o.input.drop s.pos = _
    rw [← Nat.add_sub_cancel' hp, ← List.drop_drop, ← List.drop_drop, hi.chunks]
  have fetch : fetchChunk (s.withOperandsOf o) = fetchChunk s := by
    rw [fetchChunk, fetchChunk, rest]
    rfl
  rw [decChunkStep, decChunkStep, fetch]
  cases hc : fetchChunk s with
  | error e => exact .next rfl
  | ok c => exact exec_withOperandsOf (fetchChunk_ne_endMark hc)

/-- The finish step reads WIDTH and HEIGHT alone. -/
theorem decFinishStep_sameButFormat (hw : o.hdr.width = s.hdr.width) (hh : o.hdr.height = s.hdr.height) :
    SameBut o (decFinishStep s) (decFinishStep (s.withOperandsOf o)) := by
  have check : checkCount (trimPhantoms (s.withOperandsOf o)) =
      (checkCount (trimPhantoms s)).map (·.withOperandsOf o) := by
    have size :
        pixelCount (trimPhantoms (s.withOperandsOf o)).hdr.width (trimPhantoms (s.withOperandsOf o)).hdr.height =
          pixelCount (trimPhantoms s).hdr.width (trimPhantoms s).hdr.height := congrArg₂ pixelCount hw hh
    have stored : (trimPhantoms (s.withOperandsOf o)).outpix = (trimPhantoms s).outpix := rfl
    simp only [checkCount, size, stored]
    split
    · rfl
    · split <;> rfl
  rw [decFinishStep, decFinishStep, check]
  cases checkCount (trimPhantoms s) with
  | ok t => exact .next rfl
  | raised e t => exact .next rfl

end

/-! ### The two runs side by side -/

/-- Two lone decodes at the same place: they differ at most in HDR and the operands, and past the header they agree on
WIDTH and HEIGHT, with POS behind the two bytes. -/
structure SameDecode (input input' : List Byte) (s s' : State) : Prop where
  regs : s' = s.withOperandsOf s'
  only : DecodeOnly input s
  input' : s'.input = input'
  header : s.phase = .decHeader ∨ s.phase = .failed ∨
    14 ≤ s.pos ∧ s'.hdr.width = s.hdr.width ∧ s'.hdr.height = s.hdr.height

section
variable {input input' : List Byte} {s s' : State}

theorem SameDecode.observe_eq (h : SameDecode input input' s s') : observe .decode s = observe .decode s' := by
  have hp : s'.phase = s.phase := (congrArg State.phase h.regs :)
  have hs : s'.status = s.status := (congrArg State.status h.regs :)
  have ho : s'.outpix = s.outpix := (congrArg State.outpix h.regs :)
  unfold observe
  rw [hp, hs, ho]
  cases he : s.phase with
  | done =>
    obtain ⟨-, hw, hh⟩ := by simpa [he] using h.header
    simp only [hw, hh]
  | _ => rfl

/-- A decoder step past the header parse fails or does not move POS back. -/
theorem pos_le_of_step {t : State} (hd : s.phase = .decChunks ∨ s.phase = .decFinish) (h : Machine.step s = .next t) :
    t.phase = .failed ∨ s.pos ≤ t.pos := by
  rcases hd with hp | hp
  · exact (chunkStep_progress hp h).imp (·.1) (·.1.le)
  · rcases decFinish_cases hp with ⟨e, failed⟩ | done
    · rw [failed] at h
      cases h
      exact .inl rfl
    · rw [done] at h
      cases h
      exact .inr le_rfl

/-- A step past the header parse that only carries the operands along keeps the relation. -/
theorem SameDecode.of_sameBut (h : SameDecode input input' s s') (hd : s.phase = .decChunks ∨ s.phase = .decFinish)
    (hq : 14 ≤ s.pos ∧ s'.hdr.width = s.hdr.width ∧ s'.hdr.height = s.hdr.height)
    (both : SameBut s' (Machine.step s) (Machine.step s')) :
    EndAlike (SameDecode input input') (Machine.step s) (Machine.step s') := by
  obtain ⟨past, hw, hh⟩ := hq
  have parsed : s.phase ≠ .decHeader := by rcases hd with hp | hp <;> rw [hp] <;> nofun
  refine both.imp fun {t t'} ht e => ?_
  subst e
  have hdr : t.hdr = s.hdr := (congrArg State.hdr (step_keepsOperands (Decoding.busy (.inr hd)) parsed ht) :)
  refine ⟨rfl, h.only.of_step ht, h.input', .inr ?_⟩
  rw [hdr]
  exact (pos_le_of_step hd ht).imp_right fun onward => ⟨past.trans onward, hw, hh⟩

theorem SameDecode.step (hi : SameButFormat input input') (h : SameDecode input input' s s') :
    EndAlike (SameDecode input input') (Machine.step s) (Machine.step s') := by
  have hi : SameButFormat s.input s'.input := by rwa [h.only.input, h.input']
  rcases waiting_or_decoding_or_encoding s with hw | hd | he
  · have hw' : Waiting s' := by rw [h.regs]; exact hw
    have hh' : s'.host = [] := (congrArg State.host h.regs :).trans h.only.host
    rw [step_waiting hw, step_waiting hw', waitStep, waitStep, h.only.host, hh']
    exact .next h
  · by_cases hp : s.phase = .decHeader
    · rw [h.regs, step_decHeader hp, step_decHeader (s := s.withOperandsOf s') hp]
      refine (decHeaderStep_sameButFormat hi).imp fun {t t'} ht ⟨regs, input, header⟩ => ?_
      exact ⟨regs, h.only.of_step ((step_decHeader hp).trans ht), input.trans h.input', .inr header⟩
    have past := (h.header.resolve_left hp).resolve_left fun failed => hd.busy (.inr (.inr failed))
    refine h.of_sameBut (hd.resolve_left hp) past ?_
    rw [h.regs]
    rcases hd.resolve_left hp with hp | hp
    · rw [step_decChunks hp, step_decChunks (s := s.withOperandsOf s') hp]
      exact decChunkStep_sameButFormat hi past.1
    · rw [step_decFinish hp, step_decFinish (s := s.withOperandsOf s') hp]
      exact decFinishStep_sameButFormat past.2.1 past.2.2
  · exact absurd he h.only.pipeline

end

end Sys2Proof.Machine

open Sys2Proof Sys2Proof.Machine

/-- Settles O9: the two commands start alike, every step keeps `SameDecode`, and the host sees nothing else. -/
theorem decodingIgnoresChannelsAndColorspace : Obligations.DecodingIgnoresChannelsAndColorspace := by
  intro s front rest c d c' d' n hw hf
  have start (bs : List Byte) : step { s with host := [.decode bs] } = .next (startDecode bs { s with host := [] }) :=
    step_command (s := { s with host := [.decode bs] }) hw rfl
  have same := sameButFormat_append (rest := rest) hf c d c' d'
  cases n with
  | zero => rfl
  | succ n =>
    have first : EndAlike (SameDecode (front ++ [c, d] ++ rest) (front ++ [c', d'] ++ rest))
        (step { s with host := [.decode (front ++ [c, d] ++ rest)] })
        (step { s with host := [.decode (front ++ [c', d'] ++ rest)] }) := by
      rw [start, start]
      exact .next ⟨rfl, ⟨rfl, rfl, by simp [startDecode, Encoding]⟩, rfl, .inl rfl⟩
    exact (first.steps_succ (EndAlike.steps (SameDecode.step same) n)).observed_eq SameDecode.observe_eq

end
